-- ==== Sys2Proof/Word.lean ====
section
/-! DEFINITION. The value types of 00_scope.md R8, R9: bytes, words, and the eight-byte block. -/

namespace Sys2Proof

/-- R9: `Byte`, an unsigned 8-bit value; bit 7 is the most significant (R8). -/
abbrev Byte := BitVec 8

/-- R9: `Dec`, a byte used as a decimal value. -/
abbrev Dec := Byte

/-- R68, R72: command and response words have 16 bits. -/
abbrev Word16 := BitVec 16

/-- Eight bytes in the fixed positional meaning of R9 and of the register map R26: position `i` is record
element `rec[i]`, buffer byte `buf[i]` and register `P[i]`. -/
structure Block where
  seconds : Byte
  minutes : Byte
  hours   : Byte
  day     : Byte
  date    : Byte
  month   : Byte
  year    : Byte
  control : Byte
deriving DecidableEq, Repr, Inhabited

/-- R9: the Decimal Time Record. -/
abbrev Rec := Block

/-- R26: the peripheral's register file `P[0]` to `P[7]`. -/
abbrev Regs := Block

end Sys2Proof
end

