-- ==== Sys2Proof/Syntax.lean ====
section
/-! DEFINITION. The nine commands of 30_encoding.md R70, R76, the raw command (R68), and the assembler line of R74. -/

namespace Sys2Proof

/-- R9, R65: the Meridian Indicator, "one of {AM, PM, 24-HOUR}". -/
inductive Mer where
  | am
  | pm
  | h24
deriving DecidableEq, Repr, Inhabited

/-- R70: the nine operations, by mnemonic. -/
inductive Op where
  | dsec
  | dgen
  | dhrs
  | dmer
  | edp
  | ehrs
  | rdt
  | rdm
  | wrt
deriving DecidableEq, Repr, Inhabited

/-- The commands, one constructor per row of the opcode table (R70). Every field's type holds exactly the operands the
encoding admits (R68, R69), so each term is a well-formed command: there is no ill-formed one to check for. -/
inductive Instr where
  /-- R80: decode a seconds byte. -/
  | dsec (b : Byte)
  /-- R81: decode a generic time byte. -/
  | dgen (b : Byte)
  /-- R82: decode the hour of an hours byte. -/
  | dhrs (b : Byte)
  /-- R83: decode clock mode and meridian of an hours byte. -/
  | dmer (b : Byte)
  /-- R90: pack a decimal value into a digit pair. -/
  | edp (v : Dec)
  /-- R91: pack an hour and a meridian into an hours byte. -/
  | ehrs (h : Dec) (m : Mer)
  /-- R101: read the eight registers. -/
  | rdt
  /-- R102: read the hours register's meridian. -/
  | rdm
  /-- R103: write the eight registers. -/
  | wrt (r : Rec) (m : Mer)
deriving DecidableEq, Repr

/-- The operation a command belongs to. -/
def Instr.op : Instr → Op
  | .dsec _   => .dsec
  | .dgen _   => .dgen
  | .dhrs _   => .dhrs
  | .dmer _   => .dmer
  | .edp _    => .edp
  | .ehrs _ _ => .ehrs
  | .rdt      => .rdt
  | .rdm      => .rdm
  | .wrt _ _  => .wrt

/-- R70: bit 15 of the word "tells a pure command from a transaction"; the three transactions are RDT, RDM, WRT. -/
def Op.isTransaction : Op → Bool
  | .rdt | .rdm | .wrt => true
  | .dsec | .dgen | .dhrs | .dmer | .edp | .ehrs => false

/-- R68: a raw command as the host presents it: the 16-bit command word, and beside it the record operand, which only
`WRT` reads ("ignored, and not part of the command, for every other op"). -/
structure Command where
  cw   : Word16
  wrec : Rec
deriving DecidableEq, Repr

/-- R74: an operand of an assembler line. A byte operand is a number in whatever base it is spelt. -/
inductive Operand where
  | num (n : Nat)
  | mer (m : Mer)
  | record (l : List Nat)
deriving DecidableEq, Repr

/-- R74: one assembler line, a mnemonic and its operands. -/
structure AsmLine where
  op       : Op
  operands : List Operand
deriving DecidableEq, Repr

end Sys2Proof
end

