-- ==== Sys2Proof/Config.lean ====
section
/-! DEFINITION. What is fixed for a run: the parameters of 00_scope.md R4 and R5, and the free values (constants without
a body: nothing in Lean can evaluate them, so a statement that holds, holds whatever they are). -/

namespace Sys2Proof

/-- R5, R73, R111: the transport's error value, an open type "with at least the three named values": `other` stands for
every further kind (N4: "Do not assume the three are all there are"). -/
inductive BusErr where
  | timeout
  | nack
  | arbLost
  | other (n : Nat)
deriving DecidableEq, Repr, Inhabited

/-- R56(a), R58: the transport's answer, success or a failure with its cause; the data of a successful read come from
the peripheral. -/
inductive Answer where
  /-- success, all bytes moved at one instant (R57) -/
  | ok
  /-- success, the bytes moved at different moments of the transaction (R49, R56(b), D18): just before byte `i` is moved the
  peripheral takes a step to contents `moments[i]`; where the list is shorter it takes no further one (log entry 10) -/
  | torn (moments : List Regs)
  /-- failure -/
  | fail (e : BusErr)
deriving DecidableEq, Repr, Inhabited

/-- R4: "Device address is fixed at the peripheral's 7-bit address 1101000 (binary)". -/
def Config.devAddr : BitVec 7 := 0b1101000#7

/-- R4: `REG_BASE`, where both bulk transfers start. -/
def Config.regBase : Byte := 0x00#8

/-- R4: `REG_COUNT`. -/
def Config.regCount : Nat := 8

/-- R4: `REG_HOURS`. -/
def Config.regHours : Byte := 0x02#8

/-- R4: `REG_ADDR_SIZE`. -/
def Config.regAddrSize : Nat := 1

/-- R5: `T_WRITE_MS`, an OPEN number of milliseconds (log entry 13). -/
opaque Config.tWriteMs : Nat

/-- By how much, less one, the read timeout exceeds the write timeout: OPEN (log entry 13). -/
opaque Config.tReadExtraMs : Nat

/-- R5, R120: `T_READ_MS`, OPEN but for `T_WRITE_MS < T_READ_MS`. -/
def Config.tReadMs : Nat := Config.tWriteMs + Config.tReadExtraMs + 1

/-- R72, D14: a `val` field marked `any`. Free value (log entry 1). -/
opaque Config.anyByte : Nat → Byte

/-- R72, D14: an `m` field marked `any`; R65: "No response ever carries 11". Free value (log entry 1). -/
opaque Config.anyMer : Nat → Mer

/-- R72, D14: the record of a failed `RDT`. Free value (log entry 1). -/
opaque Config.anyRec : Nat → Rec

/-- R37, U9: the packed buffer after reset. Free value (log entries 1, 2). -/
opaque Config.anyBuf : Nat → Block

/-- R37, R50: the peripheral's registers where the rules leave them unspecified: at reset, and after a write that failed
or was abandoned. Free value (log entries 1, 3, 9). -/
opaque Config.anyPeriph : Nat → Regs

/-- R56(f), D17: what `PeriphStep` has made of the registers where a run does not say. Free value (log entry 6). -/
opaque Config.driftedPeriph : Nat → Regs

/-- R58, U11: the transport's answer where a run does not say. Free value (log entry 6). -/
opaque Config.freeAnswer : Nat → Answer

/-- R73, D7: which of the three failure codes the 2-bit `st` shows for an error beyond the three named ones; the spec
gives none. Free value (log entry 12). -/
opaque Config.otherErrCode : Nat → Fin 3

end Sys2Proof
end

