-- ==== Sys2Proof/Machine/Block.lean ====
section
/-! DEFINITION. Blocks by position: 20_memory.md R45, buffer byte `i` corresponds to register `R + i`, ascending. -/

namespace Sys2Proof.Machine

/-- The all-zero block of R21 ("an all-zero scratch buffer"). -/
def zeroBlock : Block := ⟨0#8, 0#8, 0#8, 0#8, 0#8, 0#8, 0#8, 0#8⟩

/-- The eight bytes in ascending position (R45). -/
def blockToList (b : Block) : List Byte :=
  [b.seconds, b.minutes, b.hours, b.day, b.date, b.month, b.year, b.control]

/-- A block from exactly eight bytes in ascending position. -/
def blockOfList : List Byte → Option Block
  | [s, mi, h, dw, dt, mo, y, c] => some ⟨s, mi, h, dw, dt, mo, y, c⟩
  | _ => none

/-- The byte at position `i` (R26: register `P[i]`); there is none from 8 on. -/
def readByte (b : Block) (i : Nat) : Option Byte := (blockToList b)[i]?

/-- The block with the byte at position `i` replaced; positions from 8 on are not part of it. -/
def writeByte (b : Block) (i : Nat) (v : Byte) : Block :=
  match i with
  | 0 => { b with seconds := v }
  | 1 => { b with minutes := v }
  | 2 => { b with hours := v }
  | 3 => { b with day := v }
  | 4 => { b with date := v }
  | 5 => { b with month := v }
  | 6 => { b with year := v }
  | 7 => { b with control := v }
  | _ => b

/-- R42: the `len` bytes of registers `reg`, `reg + 1`, … -/
def bulkRead (p : Regs) (reg len : Nat) : List Byte := ((blockToList p).drop reg).take len

/-- R56(b): the register contents at the moment byte `i` of a transfer is moved, where the registers held `p` before it and
the peripheral steps to `moments[i]` just before byte `i`. -/
def momentAt (p : Regs) : List Regs → Nat → Regs
  | [], _ => p
  | m :: _, 0 => m
  | m :: ms, i + 1 => momentAt m ms i

/-- R56(b): the register contents after the last of the peripheral's steps in a transfer. -/
def lastMoment (p : Regs) : List Regs → Regs
  | [] => p
  | m :: ms => lastMoment m ms

/-- R56(b), D18: a read whose bytes are of different moments: byte `i` is register `reg + i` at its own moment. -/
def tornRead : Regs → List Regs → Nat → Nat → List Byte
  | _, _, _, 0 => []
  | p, ms, reg, len + 1 =>
    bulkRead (momentAt p ms 0) reg 1 ++ tornRead (momentAt p ms 0) ms.tail (reg + 1) len

/-- R43: byte `i` of the data goes to register `reg + i`. -/
def bulkWrite (p : Regs) (reg : Nat) : List Byte → Regs
  | [] => p
  | b :: bs => bulkWrite (writeByte p reg b) (reg + 1) bs

end Sys2Proof.Machine
end

