-- ==== Sys2Proof/WellFormed.lean ====
section
/-! DEFINITION. What is checked of raw terms: command words against the opcode map 30_encoding.md R70 (mask and match, as
the map is printed; the decoder of Decode.lean reads fields instead), and assembler lines against R74. Terms of `Instr`
need no check: their types admit well-formed commands only. -/

namespace Sys2Proof

/-- R69: which fields of the word carry an operand. -/
inductive Format where
  | b
  | h
  | n
  | w
deriving DecidableEq, Repr

/-- One row of R70. `merOperand` is the constraint "m != 11". -/
structure OpRow where
  op         : Op
  format     : Format
  code       : BitVec 4
  pattern    : Word16
  mask       : Word16
  merOperand : Bool
deriving DecidableEq, Repr

/-- R70, the opcode map, row by row. -/
def opcodeMap : List OpRow :=
  [ ⟨.dsec, .b, 0x1#4, 0x1000#16, 0xFF00#16, false⟩,
    ⟨.dgen, .b, 0x2#4, 0x2000#16, 0xFF00#16, false⟩,
    ⟨.dhrs, .b, 0x3#4, 0x3000#16, 0xFF00#16, false⟩,
    ⟨.dmer, .b, 0x4#4, 0x4000#16, 0xFF00#16, false⟩,
    ⟨.edp,  .b, 0x5#4, 0x5000#16, 0xFF00#16, false⟩,
    ⟨.ehrs, .h, 0x6#4, 0x6000#16, 0xFC00#16, true⟩,
    ⟨.rdt,  .n, 0x8#4, 0x8000#16, 0xFFFF#16, false⟩,
    ⟨.rdm,  .n, 0x9#4, 0x9000#16, 0xFFFF#16, false⟩,
    ⟨.wrt,  .w, 0xA#4, 0xA000#16, 0xFCFF#16, true⟩ ]

/-- R70: "A command word selects a command when (cw & mask) = match and the listed constraint holds." -/
def OpRow.selects (row : OpRow) (cw : Word16) : Bool :=
  (cw &&& row.mask == row.pattern) && (!row.merOperand || cw &&& 0x0300#16 != 0x0300#16)

/-- R70, R71: a word is a command when some row selects it; every other word is reserved. -/
def Command.wellFormed (c : Command) : Bool := opcodeMap.any (·.selects c.cw)

/-- R74: "A byte operand is a number 0 to 255". -/
def byteOperand (n : Nat) : Bool := n < 256

/-- R74: the operands each mnemonic takes; "A record operand is eight byte operands". -/
def AsmLine.wellFormed (l : AsmLine) : Bool :=
  match l.op, l.operands with
  | .dsec, [.num n] => byteOperand n
  | .dgen, [.num n] => byteOperand n
  | .dhrs, [.num n] => byteOperand n
  | .dmer, [.num n] => byteOperand n
  | .edp,  [.num n] => byteOperand n
  | .ehrs, [.num n, .mer _] => byteOperand n
  | .rdt,  [] => true
  | .rdm,  [] => true
  | .wrt,  [.record ns, .mer _] => ns.length == 8 && ns.all byteOperand
  | _, _ => false

end Sys2Proof
end

