-- ==== Sys2Proof/Decode.lean ====
section
/-! DEFINITION. Decoding command words (30_encoding.md R65, R68 to R71), total and rejecting by name; then the encoder,
the assembler of R74, and the opcode table's numbering of a command's bits. -/

namespace Sys2Proof

/-- Why a command word is reserved (R71). Where several reasons hold, the decoder names the first in this order. -/
inductive Reject where
  /-- `op` is 0x0, 0x7 or 0xB to 0xF. -/
  | reservedOp (op : BitVec 4)
  /-- `cw[11:10]` is not 00. -/
  | reservedBits
  /-- a word without a byte operand has `a` other than 0x00. -/
  | byteNotZero
  /-- a word without a meridian operand has `m` other than 00. -/
  | meridianNotZero
  /-- the meridian operand is the reserved code 11. -/
  | reservedMeridian
deriving DecidableEq, Repr

/-- R65: the meridian's 2-bit code. -/
def Mer.code : Mer → BitVec 2
  | .am  => 0b00#2
  | .pm  => 0b01#2
  | .h24 => 0b10#2

/-- R65: the meridian of a code; 11 is reserved. -/
def Mer.ofCode? (c : BitVec 2) : Option Mer :=
  if c = 0b00#2 then some .am
  else if c = 0b01#2 then some .pm
  else if c = 0b10#2 then some .h24
  else none

/-- R70: the operation codes. -/
def Op.code : Op → BitVec 4
  | .dsec => 0x1#4
  | .dgen => 0x2#4
  | .dhrs => 0x3#4
  | .dmer => 0x4#4
  | .edp  => 0x5#4
  | .ehrs => 0x6#4
  | .rdt  => 0x8#4
  | .rdm  => 0x9#4
  | .wrt  => 0xA#4

/-- R70: the operation an `op` field selects, if any. -/
def Op.ofCode? (c : BitVec 4) : Option Op :=
  [Op.dsec, .dgen, .dhrs, .dmer, .edp, .ehrs, .rdt, .rdm, .wrt].find? (·.code = c)

/-- R68: `op` = `cw[15:12]`. -/
def opField (cw : Word16) : BitVec 4 := cw.extractLsb' 12 4
/-- R68: the reserved field `cw[11:10]`. -/
def rsvField (cw : Word16) : BitVec 2 := cw.extractLsb' 10 2
/-- R68: `m` = `cw[9:8]`. -/
def merField (cw : Word16) : BitVec 2 := cw.extractLsb' 8 2
/-- R68: `a` = `cw[7:0]`. -/
def byteField (cw : Word16) : Byte := cw.extractLsb' 0 8

/-- R69: format B, one byte operand; `m` must be 00. -/
def decodeB (f : Byte → Instr) (cw : Word16) : Except Reject Instr :=
  if merField cw = 0b00#2 then .ok (f (byteField cw)) else .error .meridianNotZero

/-- R69: a meridian operand; 11 is reserved (R71). -/
def decodeMer (f : Mer → Instr) (cw : Word16) : Except Reject Instr :=
  match Mer.ofCode? (merField cw) with
  | some m => .ok (f m)
  | none => .error .reservedMeridian

/-- R69: formats N and W have no byte operand; `a` must be 0x00. -/
def needByteZero (cw : Word16) (k : Except Reject Instr) : Except Reject Instr :=
  if byteField cw = 0x00#8 then k else .error .byteNotZero

/-- R69: format N, no operands. -/
def decodeN (i : Instr) (cw : Word16) : Except Reject Instr :=
  needByteZero cw (if merField cw = 0b00#2 then .ok i else .error .meridianNotZero)

/-- The decoder (R68 to R71). `WRT` takes its record from the operand beside the word. -/
def decode (c : Command) : Except Reject Instr :=
  match Op.ofCode? (opField c.cw) with
  | none => .error (.reservedOp (opField c.cw))
  | some op =>
    if rsvField c.cw = 0b00#2 then
      match op with
      | .dsec => decodeB .dsec c.cw
      | .dgen => decodeB .dgen c.cw
      | .dhrs => decodeB .dhrs c.cw
      | .dmer => decodeB .dmer c.cw
      | .edp  => decodeB .edp c.cw
      | .ehrs => decodeMer (.ehrs (byteField c.cw)) c.cw
      | .rdt  => decodeN .rdt c.cw
      | .rdm  => decodeN .rdm c.cw
      | .wrt  => needByteZero c.cw (decodeMer (.wrt c.wrec) c.cw)
    else .error .reservedBits

/-- R68: the word `op 00 m a`. -/
def commandWord (op : Op) (m : BitVec 2) (a : Byte) : Word16 := op.code ++ 0b00#2 ++ m ++ a

/-- The encoder (R69, R74). A command other than `WRT` has no record operand: zeros stand beside it. -/
def encode : Instr → Command
  | .dsec b   => ⟨commandWord .dsec 0b00#2 b, Machine.zeroBlock⟩
  | .dgen b   => ⟨commandWord .dgen 0b00#2 b, Machine.zeroBlock⟩
  | .dhrs b   => ⟨commandWord .dhrs 0b00#2 b, Machine.zeroBlock⟩
  | .dmer b   => ⟨commandWord .dmer 0b00#2 b, Machine.zeroBlock⟩
  | .edp v    => ⟨commandWord .edp 0b00#2 v, Machine.zeroBlock⟩
  | .ehrs h m => ⟨commandWord .ehrs m.code h, Machine.zeroBlock⟩
  | .rdt      => ⟨commandWord .rdt 0b00#2 0x00#8, Machine.zeroBlock⟩
  | .rdm      => ⟨commandWord .rdm 0b00#2 0x00#8, Machine.zeroBlock⟩
  | .wrt r m  => ⟨commandWord .wrt m.code 0x00#8, r⟩

/-- R74: the command an assembler line stands for; none where the line is not well formed. -/
def assemble (l : AsmLine) : Option Instr :=
  if l.wellFormed then
    match l.op, l.operands with
    | .dsec, [.num n] => some (.dsec (BitVec.ofNat 8 n))
    | .dgen, [.num n] => some (.dgen (BitVec.ofNat 8 n))
    | .dhrs, [.num n] => some (.dhrs (BitVec.ofNat 8 n))
    | .dmer, [.num n] => some (.dmer (BitVec.ofNat 8 n))
    | .edp,  [.num n] => some (.edp (BitVec.ofNat 8 n))
    | .ehrs, [.num n, .mer m] => some (.ehrs (BitVec.ofNat 8 n) m)
    | .rdt,  [] => some .rdt
    | .rdm,  [] => some .rdm
    | .wrt,  [.record ns, .mer m] => (Machine.blockOfList (ns.map (BitVec.ofNat 8))).map (.wrt · m)
    | _, _ => none
  else none

/-- R76: the operation of the source's public interface each command renders. -/
def Op.sourceName : Op → String
  | .dsec => "decode_seconds"
  | .dgen => "decode_generic"
  | .dhrs => "decode_hours"
  | .dmer => "decode_meridian"
  | .edp  => "encode_digit_pair"
  | .ehrs => "encode_hours"
  | .rdt  => "read_time"
  | .rdm  => "read_meridian"
  | .wrt  => "write_time"

/-- A command from its bits: the low 16 are the command word, as the opcode table numbers them; the record operand, which
the table gives no bits, follows byte by byte above them (log entry 18). Bits from `nbits` on are 0. -/
def commandOfBits (nbits w : Nat) : Command :=
  let v := w % 2 ^ nbits
  let byteAt (i : Nat) : Byte := BitVec.ofNat 8 (v >>> (16 + 8 * i))
  { cw := BitVec.ofNat 16 v,
    wrec := ⟨byteAt 0, byteAt 1, byteAt 2, byteAt 3, byteAt 4, byteAt 5, byteAt 6, byteAt 7⟩ }

/-- The command the decoder reads from a word of the opcode table. -/
def decodeTableWord (nbits w : Nat) : Option Instr :=
  match decode (commandOfBits nbits w) with
  | .ok i => some i
  | .error _ => none

end Sys2Proof
end

