-- ==== Sys2Proof/Machine/State.lean ====
section
/-! DEFINITION. The state (10_state.md): the core's `phase` and `buf`, the peripheral's registers, the three channels of
D2 (commands in, responses out, bus request and answer), and the environment's coming moves. Plain data. -/

namespace Sys2Proof.Machine

/-- R20: the sequencing state. -/
inductive Phase where
  | idle
  | waitRdt
  | waitRdm
  | waitWrt
deriving DecidableEq, Repr

/-- R42, R43: the two primitives. -/
inductive BusKind where
  | read
  | write
deriving DecidableEq, Repr

/-- R42, R43: a bus request, field by field; `reg` is an 8-bit address (D33); a read carries no data. -/
structure BusReq where
  kind : BusKind
  dev  : BitVec 7
  reg  : Byte
  rsz  : Nat
  len  : Nat
  tmo  : Nat
  data : List Byte
deriving DecidableEq, Repr

/-- R42, R43: the bus response, `ok(d)` or `fail(e)`; a write's `ok` carries no data. -/
inductive BusResp where
  | ok (d : List Byte)
  | fail (e : BusErr)
deriving DecidableEq, Repr

/-- R38(b), D2: the one outstanding bus transaction, "held by the transport, not by the core". -/
inductive BusState where
  /-- no request is outstanding -/
  | quiet
  /-- the request is with the transport -/
  | serving (q : BusReq)
  /-- the transport has answered; the core has not yet completed -/
  | answered (r : BusResp)
deriving DecidableEq, Repr

/-- R9, R25(a): the status of a response. -/
inductive Status where
  | ok
  | fail (e : BusErr)
deriving DecidableEq, Repr

/-- R72: a response: the fields of the response word, and for `RDT` the record. The cause of a failure is kept whole
(R111: passed through unchanged); its 2-bit code is `Status.code`. -/
structure Response where
  op     : Op
  status : Status
  m      : Mer
  val    : Byte
  rrec   : Option Rec
deriving DecidableEq, Repr

/-- R6, R7: a coming move of the machine's surroundings. -/
inductive Input where
  /-- the host issues a command (R104) -/
  | command (c : Command)
  /-- the transport answers the outstanding request (R58) -/
  | answer (a : Answer)
  /-- the peripheral changes its registers by itself, to any content (R56(f), D17) -/
  | periphStep (p : Regs)
  /-- the core is reset (R130) -/
  | reset
  /-- nothing outside moves: the core takes its own step if it has one -/
  | pass
deriving DecidableEq, Repr

/-- The machine. -/
structure State where
  /-- R20 -/
  phase     : Phase
  /-- R21: the packed buffer -/
  buf       : Block
  /-- R26: the peripheral's registers `P[0]` to `P[7]` -/
  periph    : Regs
  /-- R38(b): the bus channel -/
  bus       : BusState
  /-- R37, R72: the response channel, oldest first (log entry 4) -/
  responses : List Response
  /-- R104, R106: commands to come, and the environment's moves among them (log entry 5) -/
  inputs    : List Input
  /-- the model's own: how many free values have been drawn (log entry 1) -/
  draws     : Nat
deriving DecidableEq, Repr

/-- What stops the machine with a fault: nothing. The one exception (R110) is reported in a response and the machine goes
on (R115); there is no other (R117, R118). So this type has no constructor. -/
inductive Fault where
deriving DecidableEq, Repr

/-- Why a step is refused. Every refusal is safe: the model gives no run. -/
inductive Refusal where
  /-- raised by exec's arm of an instruction that has no meaning yet; safe -/
  | notModelled (mnemonic : String)
  /-- raised by the accept step on a reserved command word (R71, U7 "Treat as: refuse"); safe for a host that sends none -/
  | reservedWord (why : Reject)
  /-- raised by every command's meaning while `phase` is not IDLE (R104, U5 "Treat as: refuse"); no step ever raises it,
  since a command is not taken then. Safe for a host that keeps its duty (D13), otherwise the model is silent. -/
  | busy
  /-- raised by a step whose next input is an answer of the transport with no request outstanding, or by a completion in
  phase IDLE; R56(a) excludes it: every request is answered exactly once. Safe. -/
  | unsolicitedAnswer
  /-- raised by the complete step on a successful read answer that has not the length asked for; R42 excludes it. Safe. -/
  | malformedAnswer
  /-- raised by the transport step on a request outside the list of R44 to another device or past register 0x07, of which
  the spec says nothing (R51, N18); no command issues one. Safe. -/
  | undescribedAccess
deriving DecidableEq, Repr

/-- The outcome of one step. -/
abbrev Outcome := Host.Outcome State Fault Refusal

/-- R37, R130: after reset `phase` is IDLE, no response is pending and no bus request outstanding. `buf` and `P` are
unspecified there: free values (log entries 2, 3). No command is offered (log entry 5). -/
def State.reset : State :=
  { phase := .idle, buf := Config.anyBuf 0, periph := Config.anyPeriph 0, bus := .quiet,
    responses := [], inputs := [], draws := 1 }

end Sys2Proof.Machine
end

