-- ==== Sys2Proof/Machine/Flags.lean ====
section
/-! DEFINITION. 10_state.md R25: there are no arithmetic flags. Two pieces of status exist: the status field of a response
(R72, R73) and busy. -/

namespace Sys2Proof.Machine

/-- R73, R111: the code of a failure. For an error beyond the three named ones the spec gives no code: one of the three
failure codes, a free value (log entry 12). -/
def errCode : BusErr → BitVec 2
  | .timeout => 0b01#2
  | .nack    => 0b10#2
  | .arbLost => 0b11#2
  | .other n => BitVec.ofNat 2 ((Config.otherErrCode n).val + 1)

/-- R73: `st`. -/
def Status.code : Status → BitVec 2
  | .ok     => 0b00#2
  | .fail e => errCode e

/-- R72: the response word `op st m val`. -/
def Response.word (r : Response) : Word16 := r.op.code ++ r.status.code ++ r.m.code ++ r.val

/-- R25(b): busy, `phase != IDLE`. -/
def State.busy (s : State) : Bool := decide (s.phase ≠ .idle)

end Sys2Proof.Machine
end

