-- ==== Sys2Proof/Machine/Operands.lean ====
section
/-! DEFINITION. The codec's operand forms: digit extraction and assembly (30_encoding.md R66, R67), the six pure functions
of R12, and which of them applies at which position of a block (R75). -/

namespace Sys2Proof.Machine

/-- R8: the high nibble `x[7:4]`. -/
def highNibble (x : Byte) : Nat := (x.extractLsb' 4 4).toNat
/-- R8: the low nibble `x[3:0]`. -/
def lowNibble (x : Byte) : Nat := (x.extractLsb' 0 4).toNat

/-- R66: `tens*10 + ones` of a byte already masked. The exact sum is at most 165 (R93), so nothing is cut. -/
def digitsValue (x : Byte) : Dec := BitVec.ofNat 8 (highNibble x * 10 + lowNibble x)

/-- R80: `dec_sec`, bit 7 cleared. -/
def decSec (b : Byte) : Dec := digitsValue (b &&& 0x7F#8)

/-- R81: `dec_gen`, no bit cleared; bit 7 counts as eight tens (90_conflicts.md C1; log entry 20). -/
def decGen (b : Byte) : Dec := digitsValue b

/-- R63: the clock-mode flag `b[6]`, 1 = 12-hour. -/
def mode12 (b : Byte) : Bool := b.getLsbD 6

/-- R63: bit 5, in 12-hour mode 1 = PM. -/
def pmBit (b : Byte) : Bool := b.getLsbD 5

/-- R82: `dec_hrs`, masked by the byte's own mode. -/
def decHrs (b : Byte) : Dec :=
  if mode12 b then digitsValue (b &&& 0x1F#8) else digitsValue (b &&& 0x3F#8)

/-- R83: `dec_mer`. -/
def decMer (b : Byte) : Mer :=
  if mode12 b then (if pmBit b then .pm else .am) else .h24

/-- R67, R90: `enc_dp`, `trunc_8((tens << 4) | ones)`; no range check (R92). -/
def encDp (v : Dec) : Byte := BitVec.ofNat 8 (((v.toNat / 10) <<< 4) ||| (v.toNat % 10))

/-- R91: `enc_hrs`, the digit pair with bits 6 and 5 forced for AM and PM, left alone for H24. -/
def encHrs (h : Dec) (m : Mer) : Byte :=
  match m with
  | .h24 => encDp h
  | .pm  => (encDp h ||| 0x40#8) ||| 0x20#8
  | .am  => (encDp h ||| 0x40#8) &&& 0xDF#8

/-- R75, the read column; R101. -/
def decodeBlock (d : Regs) : Rec :=
  { seconds := decSec d.seconds
    minutes := decGen d.minutes
    hours   := decHrs d.hours
    day     := decGen d.day
    date    := decGen d.date
    month   := decGen d.month
    year    := decGen d.year
    control := d.control }

/-- R103, the three stages after the buffer is zeroed: digit pairs at positions 0 to 6, the hours encode on top, the
control byte copied. -/
def packInto (scratch : Block) (r : Rec) (m : Mer) : Block :=
  let pairs : Block :=
    { scratch with
      seconds := encDp r.seconds
      minutes := encDp r.minutes
      hours   := encDp r.hours
      day     := encDp r.day
      date    := encDp r.date
      month   := encDp r.month
      year    := encDp r.year }
  let onTop : Block := { pairs with hours := encHrs r.hours m }
  { onTop with control := r.control }

/-- R103: `buf` as `WRT` builds it, from the all-zero scratch buffer. -/
def packBuffer (r : Rec) (m : Mer) : Block := packInto zeroBlock r m

end Sys2Proof.Machine
end

