-- ==== Sys2Proof/Machine/Ops.lean ====
section
/-! DEFINITION. The operations every meaning is made of: accepting (42_transactions.md R104), responding (30_encoding.md
R72), sending and completing a bus request (R100, R105), the transport failure (60_exceptions.md R115), and reset (R130). -/

namespace Sys2Proof.Machine

/-! ### State updates -/

def State.withPhase (s : State) (p : Phase) : State := { s with phase := p }
def State.withBuf (s : State) (b : Block) : State := { s with buf := b }
def State.withPeriph (s : State) (p : Regs) : State := { s with periph := p }
def State.withBus (s : State) (b : BusState) : State := { s with bus := b }
def State.withInputs (s : State) (is : List Input) : State := { s with inputs := is }
/-- One free value has been drawn (log entry 1). -/
def State.drawn (s : State) : State := { s with draws := s.draws + 1 }

/-! ### Accepting and responding -/

/-- R104: "The core accepts a command only when phase = IDLE". -/
def whenIdle (s : State) (k : State → Outcome) : Outcome :=
  if s.phase = .idle then k s else .refused .busy

/-- R72: what the rules say of a response's payload; a field at `none` is marked `any`. -/
structure Payload where
  m    : Option Mer := none
  val  : Option Byte := none
  rrec : Option Rec := none
deriving DecidableEq, Repr

/-- R72: the response; a payload field marked `any` is the free value drawn at `n` (log entry 1). Only `RDT` has a record. -/
def responseOf (op : Op) (st : Status) (p : Payload) (n : Nat) : Response :=
  { op     := op
    status := st
    m      := p.m.getD (Config.anyMer n)
    val    := p.val.getD (Config.anyByte n)
    rrec   := if op = .rdt then some (p.rrec.getD (Config.anyRec n)) else none }

/-- R11 `respond`: send one response on the response channel. -/
def respond (op : Op) (st : Status) (p : Payload) (s : State) : State :=
  { s with responses := s.responses ++ [responseOf op st p s.draws], draws := s.draws + 1 }

/-! ### Bus requests (20_memory.md R44) -/

/-- R44, the row of `RDT`. -/
def rdtRequest : BusReq :=
  { kind := .read, dev := Config.devAddr, reg := Config.regBase, rsz := Config.regAddrSize,
    len := Config.regCount, tmo := Config.tReadMs, data := [] }

/-- R44, the row of `RDM`; its timeout is the read timeout (D12). -/
def rdmRequest : BusReq :=
  { kind := .read, dev := Config.devAddr, reg := Config.regHours, rsz := Config.regAddrSize,
    len := 1, tmo := Config.tReadMs, data := [] }

/-- R44, the row of `WRT`. -/
def wrtRequest (b : Block) : BusReq :=
  { kind := .write, dev := Config.devAddr, reg := Config.regBase, rsz := Config.regAddrSize,
    len := Config.regCount, tmo := Config.tWriteMs, data := blockToList b }

/-- R100, issue: hand the request to the transport and wait in `ph`. -/
def sendRequest (ph : Phase) (q : BusReq) (s : State) : State :=
  (s.withPhase ph).withBus (.serving q)

/-- R105: the complete step sets `phase <- IDLE`; the transaction is over. -/
def endTransaction (s : State) : State := (s.withPhase .idle).withBus .quiet

/-! ### The one exception (R110, R115) -/

/-- R115, `raise TransportFailure(e)`: the response has the cause as its status and every payload field `any`; `phase`
goes to IDLE; nothing is saved. There is no return from it (R116). -/
def raiseTransportFailure (op : Op) (e : BusErr) (s : State) : State :=
  endTransaction (respond op (.fail e) {} s)

/-! ### Reset (R130) -/

/-- R130: the core goes to the state of R37; the peripheral is not touched, but a write that was in progress leaves its
registers unspecified. Inputs to come stay (log entry 14). -/
def coreReset (s : State) : State :=
  { phase := .idle
    buf := Config.anyBuf s.draws
    periph := if s.phase = .waitWrt then Config.anyPeriph s.draws else s.periph
    bus := .quiet
    responses := []
    inputs := s.inputs
    draws := s.draws + 1 }

end Sys2Proof.Machine
end

