-- ==== Sys2Proof/Machine/CodecDecode.lean ====
section
/-! DEFINITION. The decode commands (40_codec_decode.md). Common to all four: one step, `phase`, `buf` and the peripheral
untouched, no bus request, status OK for every byte (R84). -/

namespace Sys2Proof.Machine

/-- R80: `DSEC b`. -/
def execDsec (b : Byte) (s : State) : Outcome :=
  whenIdle s fun s => .next (respond .dsec .ok { val := some (decSec b) } s)

/-- R81: `DGEN b`. -/
def execDgen (b : Byte) (s : State) : Outcome :=
  whenIdle s fun s => .next (respond .dgen .ok { val := some (decGen b) } s)

/-- R82: `DHRS b`. -/
def execDhrs (b : Byte) (s : State) : Outcome :=
  whenIdle s fun s => .next (respond .dhrs .ok { val := some (decHrs b) } s)

/-- R83: `DMER b`. -/
def execDmer (b : Byte) (s : State) : Outcome :=
  whenIdle s fun s => .next (respond .dmer .ok { m := some (decMer b) } s)

end Sys2Proof.Machine
end

