-- ==== Sys2Proof/Machine/CodecEncode.lean ====
section
/-! DEFINITION. The encode commands (41_codec_encode.md): one step, nothing checked (R92), status OK for every operand. -/

namespace Sys2Proof.Machine

/-- R90: `EDP v`. -/
def execEdp (v : Dec) (s : State) : Outcome :=
  whenIdle s fun s => .next (respond .edp .ok { val := some (encDp v) } s)

/-- R91: `EHRS h, m`. -/
def execEhrs (h : Dec) (m : Mer) (s : State) : Outcome :=
  whenIdle s fun s => .next (respond .ehrs .ok { val := some (encHrs h m) } s)

end Sys2Proof.Machine
end

