-- ==== Sys2Proof/Machine/Transactions.lean ====
section
/-! DEFINITION. The transaction commands (42_transactions.md): the issue step is the command's meaning; the complete step
(R105) takes the transport's answer. -/

namespace Sys2Proof.Machine

/-- R101, issue step of `RDT`. -/
def execRdt (s : State) : Outcome :=
  whenIdle s fun s => .next (sendRequest .waitRdt rdtRequest s)

/-- R102, issue step of `RDM`. -/
def execRdm (s : State) : Outcome :=
  whenIdle s fun s => .next (sendRequest .waitRdm rdmRequest s)

/-- R103, issue step of `WRT`: build `buf`, send it. -/
def execWrt (r : Rec) (m : Mer) (s : State) : Outcome :=
  whenIdle s fun s =>
    .next (sendRequest .waitWrt (wrtRequest (packBuffer r m)) (s.withBuf (packBuffer r m)))

/-- R101, complete step of `RDT`. -/
def completeRdt (r : BusResp) (s : State) : Outcome :=
  match r with
  | .fail e => .next (raiseTransportFailure .rdt e s)
  | .ok d =>
    match blockOfList d with
    | some regs => .next (endTransaction (respond .rdt .ok { rrec := some (decodeBlock regs) } s))
    | none => .refused .malformedAnswer

/-- R102, complete step of `RDM`. -/
def completeRdm (r : BusResp) (s : State) : Outcome :=
  match r with
  | .fail e => .next (raiseTransportFailure .rdm e s)
  | .ok [b] => .next (endTransaction (respond .rdm .ok { m := some (decMer b) } s))
  | .ok _ => .refused .malformedAnswer

/-- R103, complete step of `WRT`. -/
def completeWrt (r : BusResp) (s : State) : Outcome :=
  match r with
  | .fail e => .next (raiseTransportFailure .wrt e s)
  | .ok _ => .next (endTransaction (respond .wrt .ok {} s))

/-- R105: the complete step of the command that waits. -/
def complete (r : BusResp) (s : State) : Outcome :=
  match s.phase with
  | .waitRdt => completeRdt r s
  | .waitRdm => completeRdm r s
  | .waitWrt => completeWrt r s
  | .idle => .refused .unsolicitedAnswer

end Sys2Proof.Machine
end

