-- ==== Sys2Proof/Machine/Dispatch.lean ====
section
/-! DEFINITION. One arm per command (30_encoding.md R70). -/

namespace Sys2Proof.Machine

/-- What the core does when it accepts a command (R104). -/
def exec (i : Instr) (s : State) : Host.Outcome State Fault Refusal :=
  match i with
  | .dsec b => Sys2Proof.Machine.execDsec b s
  | .dgen b => Sys2Proof.Machine.execDgen b s
  | .dhrs b => Sys2Proof.Machine.execDhrs b s
  | .dmer b => Sys2Proof.Machine.execDmer b s
  | .edp v => Sys2Proof.Machine.execEdp v s
  | .ehrs h m => Sys2Proof.Machine.execEhrs h m s
  | .rdt => Sys2Proof.Machine.execRdt s
  | .rdm => Sys2Proof.Machine.execRdm s
  | .wrt r m => Sys2Proof.Machine.execWrt r m s

end Sys2Proof.Machine
end

