-- ==== Sys2Proof/Machine/Transport.lean ====
section
/-! DEFINITION. The transport and the peripheral, as far as 20_memory.md R42, R43, R50, R56 describe them. -/

namespace Sys2Proof.Machine

/-- R40, R41, R51: the request goes to the one device, with a one-byte register address, within registers 0x00 to 0x07. -/
def describedAccess (q : BusReq) : Bool :=
  q.dev == Config.devAddr && q.rsz == Config.regAddrSize && decide (q.reg.toNat + q.len ≤ 8) &&
    (decide (q.kind = .read) || q.data.length == q.len)

/-- R56: the transport serves the request with answer `a`. A read, successful or not, leaves the registers as they were, but
for the peripheral's own steps of a torn transfer (R50, D16; log entries 7, 10); each byte read is its register's content
at one instant (R57) or at its own moment (R49, R56(b)); a successful write, torn or not, ends with its data stored
(R56(c)); a failed write leaves every register unspecified (R56(d), D15; log entry 9). -/
def serve (q : BusReq) (a : Answer) (s : State) : Outcome :=
  if describedAccess q then
    match q.kind, a with
    | .read,  .ok     => .next (s.withBus (.answered (.ok (bulkRead s.periph q.reg.toNat q.len))))
    | .read,  .torn ms =>
      .next ((s.withPeriph (lastMoment s.periph ms)).withBus (.answered (.ok (tornRead s.periph ms q.reg.toNat q.len))))
    | .read,  .fail e => .next (s.withBus (.answered (.fail e)))
    | .write, .ok     => .next ((s.withPeriph (bulkWrite s.periph q.reg.toNat q.data)).withBus (.answered (.ok [])))
    | .write, .torn ms =>
      .next ((s.withPeriph (bulkWrite (lastMoment s.periph ms) q.reg.toNat q.data)).withBus (.answered (.ok [])))
    | .write, .fail e => .next ((s.withPeriph (Config.anyPeriph s.draws)).drawn.withBus (.answered (.fail e)))
  else .refused .undescribedAccess

/-- R56(a), (f), R58: where the run names no answer, the environment is the conservative one: the peripheral may have
changed its registers in any way, and the answer is free, a torn transfer with any moments among the free ones (log entries
6, 10). -/
def serveFreely (q : BusReq) (s : State) : Outcome :=
  serve q (Config.freeAnswer s.draws) (s.withPeriph (Config.driftedPeriph s.draws)).drawn

end Sys2Proof.Machine
end

