-- ==== Sys2Proof/Machine/Cycle.lean ====
section
/-! DEFINITION. One move of the whole system (00_scope.md R6, R7): which agent moves next is read from the inputs to come
and from the bus channel (log entry 24). -/

namespace Sys2Proof.Machine

/-- R104, accept: one command is sampled once and decoded; a reserved word has no step (R71). -/
def acceptCommand (c : Command) (s : State) : Outcome :=
  match decode c with
  | .ok i => exec i s
  | .error why => .refused (.reservedWord why)

/-- The move made when the inputs name none: the core completes if it has an answer (R105), the transport answers if it
has a request (R58), and otherwise the core waits for a command (R115; log entry 21). -/
def ownMove (s : State) : Outcome :=
  match s.bus with
  | .quiet      => .next s
  | .serving q  => serveFreely q s
  | .answered r => complete r s

/-- The transport answers as the run says. With the request already answered the core completes first; with none
outstanding there is nothing to answer (R56(a)). -/
def answerMove (a : Answer) (rest : List Input) (s : State) : Outcome :=
  match s.bus with
  | .quiet      => .refused .unsolicitedAnswer
  | .serving q  => serve q a (s.withInputs rest)
  | .answered r => complete r s

/-- The core's own step, if it has one. -/
def passMove (s : State) : Outcome :=
  match s.bus with
  | .answered r => complete r s
  | .quiet | .serving _ => .next s

/-- One move. A command is taken only in phase IDLE (R104); while the core waits it stays where it is and the transaction
goes on. -/
def nextMove (s : State) : Outcome :=
  match s.inputs with
  | [] => ownMove s
  | .command c :: rest => if s.phase = .idle then acceptCommand c (s.withInputs rest) else ownMove s
  | .answer a :: rest => answerMove a rest s
  | .periphStep p :: rest => .next ((s.withInputs rest).withPeriph p)
  | .reset :: rest => .next (coreReset (s.withInputs rest))
  | .pass :: rest => passMove (s.withInputs rest)

/-- A state in which the core is idle and the command stands at the head of the inputs, so that the next move accepts
it. -/
def offerCommand (c : Command) (s : State) : State :=
  ((s.withPhase .idle).withBus .quiet).withInputs (.command c :: s.inputs)

end Sys2Proof.Machine
end

