-- ==== Sys2Proof/Machine/Step.lean ====
section
/-! DEFINITION. The step: one labelled transition (00_scope.md R6). -/

namespace Sys2Proof.Machine

/-- One step of the machine. -/
def step (s : State) : Host.Outcome State Fault Refusal := nextMove s

/-- The state in which the next step accepts the command whose bits are `w` (log entry 5: this stands for the host
issuing it). -/
def State.withFetchWord (s : State) (nbits w : Nat) : State := offerCommand (commandOfBits nbits w) s

end Sys2Proof.Machine
end

