-- ==== Sys2Proof/Safety.lean ====
section
/-! DEFINITION. What a safe state, a finished run, a legal operand and a fault-free environment are, in the terms the
statements use. -/

namespace Sys2Proof

open Sys2Proof.Machine

/-- R44, R100, R52(c): the phase and the bus channel agree. IDLE has no transaction; a WAIT phase has exactly its own
request of R44 outstanding (for `WRT` with the packed buffer as data), or its answer, of the length asked for. -/
def coherent (s : State) : Bool :=
  match s.phase, s.bus with
  | .idle,    .quiet            => true
  | .waitRdt, .serving q        => decide (q = rdtRequest)
  | .waitRdm, .serving q        => decide (q = rdmRequest)
  | .waitWrt, .serving q        => decide (q = wrtRequest s.buf)
  | .waitRdt, .answered (.ok d) => d.length == 8
  | .waitRdm, .answered (.ok d) => d.length == 1
  | .waitWrt, .answered (.ok d) => d.isEmpty
  | .waitRdt, .answered (.fail _) => true
  | .waitRdm, .answered (.fail _) => true
  | .waitWrt, .answered (.fail _) => true
  | _, _ => false

/-- An input by which the host issues a command. -/
def isCommand : Input → Bool
  | .command _ => true
  | .answer _ | .periphStep _ | .reset | .pass => false

/-- R106: "The run is over when the host has received the response to its last command; then phase = IDLE and no bus
request is outstanding." No command is left; the surroundings may go on moving ("its clock may go on changing P"). -/
def runOver (s : State) : Bool :=
  decide (s.phase = .idle) && decide (s.bus = .quiet) && s.inputs.all (!isCommand ·)

/-- The next input is neither a reset nor a step of the peripheral: the core, the host or the transport moves next. -/
def undisturbed (s : State) : Bool :=
  match s.inputs with
  | .reset :: _ => false
  | .periphStep _ :: _ => false
  | _ => true

/-- These inputs begin with no move of the environment: none is left, or a command comes next. -/
def silentInputs : List Input → Bool
  | [] => true
  | .command _ :: _ => true
  | _ => false

/-- The next input names no move of the environment. -/
def silent (s : State) : Bool := silentInputs s.inputs

/-- The inputs left after a step the core takes by itself: a leading `pass` is used up. -/
def afterPass : List Input → List Input
  | .pass :: rest => rest
  | is => is

/-- The next input can be followed: a command word that decodes where a command is taken, no answer without a request. -/
def followable (s : State) : Bool :=
  match s.inputs, s.phase with
  | .command c :: _, .idle => (match decode c with | .ok _ => true | .error _ => false)
  | .answer _ :: _, .idle => false
  | _, _ => true

/-- A codec command's frame: what it leaves as it was (R22(a)). -/
def codecFrame (s t : State) : Prop :=
  t.phase = s.phase ∧ t.buf = s.buf ∧ t.periph = s.periph ∧ t.bus = s.bus ∧ t.inputs = s.inputs

/-- The complete step's frame (R105): idle, nothing outstanding, buffer and registers as they were. -/
def completedFrom (s t : State) : Prop :=
  t.phase = .idle ∧ t.bus = .quiet ∧ t.buf = s.buf ∧ t.periph = s.periph ∧ t.inputs = afterPass s.inputs

/-- R100: the phases reachable from a phase by one transition of the table, staying included. -/
def phaseMoves : Phase → List Phase
  | .idle    => [.idle, .waitRdt, .waitRdm, .waitWrt]
  | .waitRdt => [.waitRdt, .idle]
  | .waitRdm => [.waitRdm, .idle]
  | .waitWrt => [.waitWrt, .idle]

/-- R94: the contracted hour, paired with the meridian. -/
def legalHour (h : Dec) : Mer → Bool
  | .am | .pm => decide (1 ≤ h.toNat ∧ h.toNat ≤ 12)
  | .h24      => decide (h.toNat ≤ 23)

/-- R94: the contracted ranges. -/
def legalRecord (r : Rec) (m : Mer) : Bool :=
  decide (r.seconds.toNat ≤ 59) && decide (r.minutes.toNat ≤ 59) && legalHour r.hours m &&
  decide (1 ≤ r.day.toNat ∧ r.day.toNat ≤ 7) && decide (1 ≤ r.date.toNat ∧ r.date.toNat ≤ 31) &&
  decide (1 ≤ r.month.toNat ∧ r.month.toNat ≤ 12) && decide (r.year.toNat ≤ 99)

/-- R95, R107: the hours that read back, by meridian. -/
def exactHour (h : Dec) : Mer → Bool
  | .am | .pm => decide (h.toNat ≤ 19)
  | .h24      => decide (h.toNat ≤ 39)

/-- R107: "The law holds for more than the contracted ranges". -/
def exactRecord (r : Rec) (m : Mer) : Bool :=
  decide (r.seconds.toNat ≤ 79) && decide (r.minutes.toNat ≤ 159) && exactHour r.hours m &&
  decide (r.day.toNat ≤ 159) && decide (r.date.toNat ≤ 159) && decide (r.month.toNat ≤ 159) &&
  decide (r.year.toNat ≤ 159)

/-- R90: the digit pair as arithmetic: `16*(v/10) + v%10`, cut to 8 bits. -/
def digitPair (v : Dec) : Byte := BitVec.ofNat 8 (16 * (v.toNat / 10) + v.toNat % 10)

/-- R8: the number `b[hi:lo]` with `w` bits from bit `lo` up. -/
def bits (b : Byte) (lo w : Nat) : Nat := b.toNat / 2 ^ lo % 2 ^ w

/-- R61, R80: the value of a seconds byte. -/
def secondsValue (b : Byte) : Nat := bits b 4 3 * 10 + bits b 0 4

/-- R62, R81: the value of a generic time byte. -/
def genericValue (b : Byte) : Nat := bits b 4 4 * 10 + bits b 0 4

/-- R63, R82: the value of an hours byte: tens in bit 4 in 12-hour mode, in bits 5:4 in 24-hour mode. -/
def hoursValue (b : Byte) : Nat :=
  if bits b 6 1 = 1 then bits b 4 1 * 10 + bits b 0 4 else bits b 4 2 * 10 + bits b 0 4

/-- R65, R83: "H24 is b[6] = 0; AM is b[6] = 1, b[5] = 0; PM is b[6] = 1, b[5] = 1." -/
def meridianOf (b : Byte) : Mer :=
  if bits b 6 1 = 0 then .h24 else if bits b 5 1 = 0 then .am else .pm

/-- R91: `x` is the hours byte of `h` and `m`: the digit pair, with bit 6 set and bit 5 telling PM unless `m` is H24. -/
def isHoursByte (h : Dec) (m : Mer) (x : Byte) : Prop :=
  (m = .h24 → x = digitPair h) ∧
  (m ≠ .h24 → x.getLsbD 6 = true ∧ x.getLsbD 5 = decide (m = .pm) ∧
    ∀ k, k < 8 → k ≠ 5 → k ≠ 6 → x.getLsbD k = (digitPair h).getLsbD k)

/-- R75, the read column: `rec` is what the registers `d` decode to. -/
def decodesTo (d : Regs) (rec : Rec) : Prop :=
  rec.seconds.toNat = secondsValue d.seconds ∧ rec.minutes.toNat = genericValue d.minutes ∧
  rec.hours.toNat = hoursValue d.hours ∧ rec.day.toNat = genericValue d.day ∧
  rec.date.toNat = genericValue d.date ∧ rec.month.toNat = genericValue d.month ∧
  rec.year.toNat = genericValue d.year ∧ rec.control = d.control

/-- R75, the write column, and the table of R103: `b` is what the record and the meridian pack to. -/
def packsTo (r : Rec) (m : Mer) (b : Block) : Prop :=
  b.seconds = digitPair r.seconds ∧ b.minutes = digitPair r.minutes ∧ isHoursByte r.hours m b.hours ∧
  b.day = digitPair r.day ∧ b.date = digitPair r.date ∧ b.month = digitPair r.month ∧
  b.year = digitPair r.year ∧ b.control = r.control

/-- R71, the reserved words, as the rule lists them by fields. -/
def reservedByRule (cw : Word16) : Bool :=
  let op := cw.toNat / 4096
  let rsv := cw.toNat / 1024 % 4
  let m := cw.toNat / 256 % 4
  let a := cw.toNat % 256
  decide (op = 0) || decide (op = 7) || decide (op ≥ 11) || decide (rsv ≠ 0) ||
  (decide (op ∈ [1, 2, 3, 4, 5, 8, 9]) && decide (m ≠ 0)) ||
  (decide (op ∈ [8, 9, 10]) && decide (a ≠ 0)) ||
  (decide (op ∈ [6, 10]) && decide (m = 3))

/-- R74: the command word of an assembler line. -/
def assembledWord (l : AsmLine) : Option Word16 := (assemble l).map fun i => (encode i).cw

/-- `k` steps of the machine. -/
def runSteps (k : Nat) (s : State) : Outcome := Host.Core.run Sys2Proof.core k s

/-- R57: the reference environment's inputs for a list of commands with a fault-free transport: each transaction is
answered `ok`, and the peripheral does not step. -/
def faultFreeRun : List Instr → List Input
  | [] => []
  | i :: is =>
    (if i.op.isTransaction then [.command (encode i), .answer .ok] else [.command (encode i)]) ++ faultFreeRun is

/-- R106: the operations of the commands among these inputs, in order. -/
def commandOps : List Input → List Op
  | [] => []
  | .command c :: is => (match decode c with | .ok i => [i.op] | .error _ => []) ++ commandOps is
  | .answer _ :: is | .periphStep _ :: is | .reset :: is | .pass :: is => commandOps is

/-- R106: a run's inputs: commands that decode, and among them steps of the peripheral and pauses wherever they fall; no
reset, and the transport's answers left free. -/
def openInputs : List Input → Bool
  | [] => true
  | .command c :: is => (match decode c with | .ok _ => true | .error _ => false) && openInputs is
  | .periphStep _ :: is | .pass :: is => openInputs is
  | .answer _ :: _ | .reset :: _ => false

/-- How many steps such a run takes at most: three for a command, one for another input. -/
def runLength : List Input → Nat
  | [] => 0
  | .command _ :: is => runLength is + 3
  | .answer _ :: is | .periphStep _ :: is | .reset :: is | .pass :: is => runLength is + 1

/-- R106: a run of commands that leaves every move of the environment open. -/
def commandRun (is : List Instr) : List Input := is.map fun i => .command (encode i)

end Sys2Proof
end

