-- ==== Sys2Proof/Certificates/Slice0/Obligations.lean ====
section
/-! DEFINITION. The statements for the provers. Values are stated by the spec's arithmetic on a byte's number
(Safety.lean: `secondsValue`, `genericValue`, `hoursValue`, `meridianOf`, `digitPair`, `isHoursByte`), not by the functions
the meanings call. A request ⟨kind, dev, reg, rsz, len, tmo, data⟩ is written out field by field. -/

open Sys2Proof Sys2Proof.Machine

/-! ### The codec commands -/

/-- R80, R84: the command word of `DSEC b`; its value for every byte; status OK; the frame; bit 7 has no effect. -/
def Obligations.DsecDecodesTheSecondsByte : Prop :=
  ∀ b : Byte,
    (∀ w, decode ⟨0x1000#16 ||| b.setWidth 16, w⟩ = .ok (.dsec b)) ∧
    decSec (b ||| 0x80#8) = decSec b ∧ decSec b = decGen (b &&& 0x7F#8) ∧ secondsValue b ≤ 85 ∧
    ∀ s : State, s.phase = .idle →
      ∃ t r, exec (.dsec b) s = .next t ∧ codecFrame s t ∧ t.responses = s.responses ++ [r] ∧
        r.op = .dsec ∧ r.status = .ok ∧ r.rrec = none ∧ r.val.toNat = secondsValue b

/-- R81, R84: `DGEN b` reads the whole high nibble as the tens digit; no bit is cleared. It undoes `EDP` up to 159. -/
def Obligations.DgenDecodesTheGenericByte : Prop :=
  ∀ b : Byte,
    (∀ w, decode ⟨0x2000#16 ||| b.setWidth 16, w⟩ = .ok (.dgen b)) ∧ genericValue b ≤ 165 ∧
    (b.getLsbD 7 = false → genericValue b = bits b 4 3 * 10 + bits b 0 4) ∧
    (∀ v : Dec, v.toNat ≤ 159 → b = digitPair v → genericValue b = v.toNat) ∧
    ∀ s : State, s.phase = .idle →
      ∃ t r, exec (.dgen b) s = .next t ∧ codecFrame s t ∧ t.responses = s.responses ++ [r] ∧
        r.op = .dgen ∧ r.status = .ok ∧ r.rrec = none ∧ r.val.toNat = genericValue b

/-- R82, R84: `DHRS b` by the byte's own clock mode; bit 7 never matters; at most 25 and 45. -/
def Obligations.DhrsDecodesTheHoursByte : Prop :=
  ∀ b : Byte,
    (∀ w, decode ⟨0x3000#16 ||| b.setWidth 16, w⟩ = .ok (.dhrs b)) ∧
    decHrs (b ||| 0x80#8) = decHrs b ∧ hoursValue b ≤ (if bits b 6 1 = 1 then 25 else 45) ∧
    ∀ s : State, s.phase = .idle →
      ∃ t r, exec (.dhrs b) s = .next t ∧ codecFrame s t ∧ t.responses = s.responses ++ [r] ∧
        r.op = .dhrs ∧ r.status = .ok ∧ r.rrec = none ∧ r.val.toNat = hoursValue b

/-- R83: `DMER b` reads bits 6 and 5 only. -/
def Obligations.DmerDecodesTheMeridian : Prop :=
  ∀ b : Byte,
    (∀ w, decode ⟨0x4000#16 ||| b.setWidth 16, w⟩ = .ok (.dmer b)) ∧ decMer (b &&& 0x60#8) = decMer b ∧
    ∀ s : State, s.phase = .idle →
      ∃ t r, exec (.dmer b) s = .next t ∧ codecFrame s t ∧ t.responses = s.responses ++ [r] ∧
        r.op = .dmer ∧ r.status = .ok ∧ r.rrec = none ∧ r.m = meridianOf b

/-- R90: `EDP v` for every `v`, cut to 8 bits. -/
def Obligations.EdpPacksTheDigitPair : Prop :=
  ∀ v : Dec,
    (∀ w, decode ⟨0x5000#16 ||| v.setWidth 16, w⟩ = .ok (.edp v)) ∧
    ∀ s : State, s.phase = .idle →
      ∃ t r, exec (.edp v) s = .next t ∧ codecFrame s t ∧ t.responses = s.responses ++ [r] ∧
        r.op = .edp ∧ r.status = .ok ∧ r.rrec = none ∧ r.val = digitPair v

/-- R91: `EHRS h, m` for every hour and each of the three meridians. -/
def Obligations.EhrsPacksTheHoursByte : Prop :=
  ∀ (h : Dec) (m : Mer),
    (∀ w, decode ⟨0x6000#16 ||| (m.code.setWidth 16 <<< 8) ||| h.setWidth 16, w⟩ = .ok (.ehrs h m)) ∧
    ∀ s : State, s.phase = .idle →
      ∃ t r, exec (.ehrs h m) s = .next t ∧ codecFrame s t ∧ t.responses = s.responses ++ [r] ∧
        r.op = .ehrs ∧ r.status = .ok ∧ r.rrec = none ∧ isHoursByte h m r.val

/-! ### The transaction commands -/

/-- R101: `RDT`, its word, its issue step (everything else as it was), its complete step on success and on failure. -/
def Obligations.RdtReadsTheTime : Prop :=
  (∀ w, decode ⟨0x8000#16, w⟩ = .ok .rdt) ∧
  (∀ s : State, s.phase = .idle →
    exec .rdt s = .next { s with
      phase := .waitRdt
      bus := .serving ⟨.read, 0b1101000#7, 0x00#8, 1, 8, Config.tReadMs, []⟩ }) ∧
  (∀ (s : State) (d : Regs), s.phase = .waitRdt → s.bus = .answered (.ok (blockToList d)) → undisturbed s = true →
    ∃ t r rec, step s = .next t ∧ completedFrom s t ∧ t.responses = s.responses ++ [r] ∧
      r.op = .rdt ∧ r.status = .ok ∧ r.rrec = some rec ∧ decodesTo d rec) ∧
  (∀ (s : State) (e : BusErr), s.phase = .waitRdt → s.bus = .answered (.fail e) → undisturbed s = true →
    ∃ t r, step s = .next t ∧ completedFrom s t ∧ t.responses = s.responses ++ [r] ∧
      r.op = .rdt ∧ r.status = .fail e)

/-- R102: `RDM`, likewise; on the byte fetched its result is that of `DMER`. -/
def Obligations.RdmReadsTheMeridian : Prop :=
  (∀ w, decode ⟨0x9000#16, w⟩ = .ok .rdm) ∧
  (∀ s : State, s.phase = .idle →
    exec .rdm s = .next { s with
      phase := .waitRdm
      bus := .serving ⟨.read, 0b1101000#7, 0x02#8, 1, 1, Config.tReadMs, []⟩ }) ∧
  (∀ (s : State) (b : Byte), s.phase = .waitRdm → s.bus = .answered (.ok [b]) → undisturbed s = true →
    ∃ t r, step s = .next t ∧ completedFrom s t ∧ t.responses = s.responses ++ [r] ∧
      r.op = .rdm ∧ r.status = .ok ∧ r.rrec = none ∧ r.m = meridianOf b) ∧
  (∀ (s : State) (e : BusErr), s.phase = .waitRdm → s.bus = .answered (.fail e) → undisturbed s = true →
    ∃ t r, step s = .next t ∧ completedFrom s t ∧ t.responses = s.responses ++ [r] ∧
      r.op = .rdm ∧ r.status = .fail e)

/-- R103: `WRT`, its words, its issue step (the packed buffer, the request that carries it, everything else as it was),
what the transport stores on success (R56(c)), its complete step on success and on failure. -/
def Obligations.WrtPacksAndSendsTheRecord : Prop :=
  (∀ (r : Rec) (m : Mer), decode ⟨0xA000#16 ||| (m.code.setWidth 16 <<< 8), r⟩ = .ok (.wrt r m)) ∧
  (∀ (r : Rec) (m : Mer) (s : State), s.phase = .idle →
    ∃ b, packsTo r m b ∧ exec (.wrt r m) s = .next { s with
      phase := .waitWrt
      buf := b
      bus := .serving ⟨.write, 0b1101000#7, 0x00#8, 1, 8, Config.tWriteMs,
        [b.seconds, b.minutes, b.hours, b.day, b.date, b.month, b.year, b.control]⟩ }) ∧
  (∀ (b : Block) (s : State) (rest : List Input), s.inputs = .answer .ok :: rest →
    s.bus = .serving ⟨.write, 0b1101000#7, 0x00#8, 1, 8, Config.tWriteMs,
      [b.seconds, b.minutes, b.hours, b.day, b.date, b.month, b.year, b.control]⟩ →
    step s = .next { s with periph := b, bus := .answered (.ok []), inputs := rest }) ∧
  (∀ (s : State), s.phase = .waitWrt → s.bus = .answered (.ok []) → undisturbed s = true →
    ∃ t r, step s = .next t ∧ completedFrom s t ∧ t.responses = s.responses ++ [r] ∧
      r.op = .wrt ∧ r.status = .ok ∧ r.rrec = none) ∧
  (∀ (s : State) (e : BusErr), s.phase = .waitWrt → s.bus = .answered (.fail e) → undisturbed s = true →
    ∃ t r, step s = .next t ∧ completedFrom s t ∧ t.responses = s.responses ++ [r] ∧
      r.op = .wrt ∧ r.status = .fail e)

/-- R103 with R56(c): after `WRT` is issued and the transport answers `ok`, every register reads the byte its position packs
to; read per address. That the model's register file has no byte at any other address is the model's choice (log entry 17):
the spec describes none above 0x07 and says nothing of whether any exists. -/
def Obligations.WrtStoresThePackedRecord : Prop :=
  ∀ (r : Rec) (m : Mer) (s : State) (rest : List Input), s.phase = .idle → s.bus = .quiet →
    s.inputs = .command (encode (.wrt r m)) :: .answer .ok :: rest →
    ∃ t, runSteps 2 s = .next t ∧ t.phase = .waitWrt ∧ t.inputs = rest ∧ t.responses = s.responses ∧
      packsTo r m t.buf ∧ (∀ a, a < 8 → readByte t.periph a = readByte t.buf a) ∧
      (∀ a, 8 ≤ a → readByte t.periph a = none)

/-- R107, R94, R95: the end-to-end round trip. `WRT`, `RDT`, `RDM` with a fault-free transport and no step of the
peripheral, for every record in the contracted ranges, and for the wider ranges of R107: three responses, status OK, the
record and the meridian that were written. -/
def Obligations.WrittenTimeReadsBack : Prop :=
  ∀ (r : Rec) (m : Mer) (s : State) (rest : List Input),
    legalRecord r m = true ∨ exactRecord r m = true → silentInputs rest = true → s.phase = .idle → s.bus = .quiet →
    s.inputs = faultFreeRun [.wrt r m, .rdt, .rdm] ++ rest →
    ∃ t r1 r2 r3, runSteps 9 s = .next t ∧ t.responses = s.responses ++ [r1, r2, r3] ∧
      r1.op = .wrt ∧ r1.status = .ok ∧
      r2.op = .rdt ∧ r2.status = .ok ∧ r2.rrec = some r ∧
      r3.op = .rdm ∧ r3.status = .ok ∧ r3.m = m ∧
      t.phase = .idle ∧ t.bus = .quiet ∧ t.inputs = rest

/-- R52(d), R57, R117: a successful write is visible to the next successful read, for EVERY record and meridian, in range or
not, with no error anywhere: `RDT` answers what the packed bytes decode to. -/
def Obligations.WriteIsVisibleToTheNextRead : Prop :=
  ∀ (r : Rec) (m : Mer) (s : State) (rest : List Input), silentInputs rest = true → s.phase = .idle → s.bus = .quiet →
    s.inputs = faultFreeRun [.wrt r m, .rdt] ++ rest →
    ∃ t r1 r2 rec, runSteps 6 s = .next t ∧ t.responses = s.responses ++ [r1, r2] ∧
      r1.op = .wrt ∧ r1.status = .ok ∧ r2.op = .rdt ∧ r2.status = .ok ∧ r2.rrec = some rec ∧
      packsTo r m t.periph ∧ decodesTo t.periph rec ∧ t.phase = .idle ∧ t.bus = .quiet ∧ t.inputs = rest

/-- R56, R57: an explicit `periphStep` input changes the registers and nothing else. -/
def Obligations.PeripheralStepChangesOnlyTheRegisters : Prop :=
  ∀ (s : State) (p : Regs) (rest : List Input), s.inputs = .periphStep p :: rest →
    step s = .next { s with periph := p, inputs := rest }

/-- R42, R43, R49, R56(b), (c), R50: the transport serves any request within registers 0x00 to 0x07: a successful read
returns byte `i` of register `reg + i`, as many as asked for, and leaves the registers; a torn one returns byte `i` of that
register at byte `i`'s own moment, and leaves the registers as the peripheral's last step in it did; a successful write
stores byte `i` in register `reg + i` and leaves every other register, a torn one as the peripheral's last step left it; a
failed read leaves the registers (D16, log entry 7; torn transfers, log entry 10). -/
def Obligations.TransportReadsAndStoresAscending : Prop :=
  ∀ (q : BusReq) (s : State), describedAccess q = true →
    (q.kind = .read → ∃ t d, serve q .ok s = .next t ∧ t.bus = .answered (.ok d) ∧ d.length = q.len ∧
      (∀ i, i < q.len → d[i]? = readByte s.periph (q.reg.toNat + i)) ∧ t.periph = s.periph ∧
      t.phase = s.phase ∧ t.buf = s.buf ∧ t.responses = s.responses ∧ t.inputs = s.inputs) ∧
    (q.kind = .read → ∀ ms, ∃ t d, serve q (.torn ms) s = .next t ∧ t.bus = .answered (.ok d) ∧ d.length = q.len ∧
      (∀ i, i < q.len → d[i]? = readByte (momentAt s.periph ms i) (q.reg.toNat + i)) ∧
      t.periph = lastMoment s.periph ms ∧
      t.phase = s.phase ∧ t.buf = s.buf ∧ t.responses = s.responses ∧ t.inputs = s.inputs) ∧
    (q.kind = .write → ∀ ms, ∃ t, serve q (.torn ms) s = .next t ∧ t.bus = .answered (.ok []) ∧
      (∀ a, readByte t.periph a =
        if q.reg.toNat ≤ a ∧ a < q.reg.toNat + q.len then q.data[a - q.reg.toNat]?
        else readByte (lastMoment s.periph ms) a) ∧
      t.phase = s.phase ∧ t.buf = s.buf ∧ t.responses = s.responses ∧ t.inputs = s.inputs) ∧
    (q.kind = .read → ∀ e, ∃ t, serve q (.fail e) s = .next t ∧ t.bus = .answered (.fail e) ∧
      t.periph = s.periph ∧ t.phase = s.phase ∧ t.buf = s.buf ∧ t.responses = s.responses ∧ t.inputs = s.inputs) ∧
    (q.kind = .write → ∃ t, serve q .ok s = .next t ∧ t.bus = .answered (.ok []) ∧
      (∀ a, readByte t.periph a =
        if q.reg.toNat ≤ a ∧ a < q.reg.toNat + q.len then q.data[a - q.reg.toNat]? else readByte s.periph a) ∧
      t.phase = s.phase ∧ t.buf = s.buf ∧ t.responses = s.responses ∧ t.inputs = s.inputs) ∧
    (q.kind = .write → ∀ e, ∃ t, serve q (.fail e) s = .next t ∧ t.bus = .answered (.fail e) ∧
      t.phase = s.phase ∧ t.buf = s.buf ∧ t.responses = s.responses ∧ t.inputs = s.inputs)

/-- R58: "The transport's answer is free and is always given": where the run names no answer, a waiting transaction is
answered in one step, and the core has neither moved nor responded. -/
def Obligations.SilentTransportAnswers : Prop :=
  ∀ (s : State) (q : BusReq), coherent s = true → s.bus = .serving q → silent s = true →
    ∃ t r, step s = .next t ∧ t.bus = .answered r ∧ t.phase = s.phase ∧ t.buf = s.buf ∧
      t.responses = s.responses ∧ t.inputs = s.inputs

/-! ### Encoding -/

/-- R68, R70: decoding an encoded command gives it back, for every command and every operand. -/
def Obligations.DecodeOfEncodeIsTheCommand : Prop := ∀ i : Instr, decode (encode i) = .ok i

/-- D29, R68: "keeps the decoder a bijection between accepted words and calls": encoding what was decoded gives the word
back, and for `WRT` the record. -/
def Obligations.EncodeOfDecodeIsTheWord : Prop :=
  ∀ (c : Command) (i : Instr), decode c = .ok i →
    (encode i).cw = c.cw ∧ (i.op = .wrt → (encode i).wrec = c.wrec)

/-- R70: a word is a command exactly when a row of the opcode map selects it, and the command is the row's. The rows are
disjoint. -/
def Obligations.DecoderFollowsTheOpcodeMap : Prop :=
  (∀ c : Command, c.wellFormed = true ↔ ∃ i, decode c = .ok i) ∧
  (∀ (c : Command) (i : Instr) (row : OpRow), row ∈ opcodeMap → row.selects c.cw = true → decode c = .ok i →
    row.op = i.op) ∧
  (∀ (cw : Word16) (row row' : OpRow), row ∈ opcodeMap → row' ∈ opcodeMap → row.selects cw = true →
    row'.selects cw = true → row = row')

/-- R71: the words the rule lists, and only they, are refused by name; an idle core has no step for one. -/
def Obligations.ReservedWordsAreRefused : Prop :=
  (∀ c : Command, reservedByRule c.cw = true ↔ ∃ why, decode c = .error why) ∧
  (∀ (s : State) (c : Command) (rest : List Input), s.phase = .idle → s.inputs = .command c :: rest →
    reservedByRule c.cw = true → ∃ why, step s = .refused (.reservedWord why))

/-- R70, R71, R74: words written out from the encodings: one for each command, and the nearest reserved ones (vectors of
95_test_vectors.md). That a 16-bit `WRT` word comes with a record of zeros is the model's choice (log entry 18). -/
def Obligations.WrittenOutWordsDecode : Prop :=
  decodeTableWord 16 0x10D9 = some (.dsec 0xD9#8) ∧ decodeTableWord 16 0x2099 = some (.dgen 0x99#8) ∧
  decodeTableWord 16 0x3072 = some (.dhrs 0x72#8) ∧ decodeTableWord 16 0x4060 = some (.dmer 0x60#8) ∧
  decodeTableWord 16 0x5041 = some (.edp 65#8) ∧ decodeTableWord 16 0x610C = some (.ehrs 12#8 .pm) ∧
  decodeTableWord 16 0x8000 = some .rdt ∧ decodeTableWord 16 0x9000 = some .rdm ∧
  decodeTableWord 16 0xA200 = some (.wrt zeroBlock .h24) ∧
  decodeTableWord 16 0x0000 = none ∧ decodeTableWord 16 0x7012 = none ∧ decodeTableWord 16 0xB000 = none ∧
  decodeTableWord 16 0x1459 = none ∧ decodeTableWord 16 0x2159 = none ∧ decodeTableWord 16 0x8001 = none ∧
  decodeTableWord 16 0x9100 = none ∧ decodeTableWord 16 0xA301 = none ∧ decodeTableWord 16 0xA300 = none ∧
  decodeTableWord 16 0x630C = none

/-- R74: the command word of every assembler line, as the rule's table has it; a line stands for a command exactly when it
is well formed; a `WRT` line's record in record order. -/
def Obligations.AssemblerLinesHaveTheirWords : Prop :=
  (∀ l : AsmLine, l.wellFormed = true ↔ ∃ i, assemble l = some i) ∧
  (∀ n : Nat, n < 256 →
    assembledWord ⟨.dsec, [.num n]⟩ = some (0x1000#16 ||| BitVec.ofNat 16 n) ∧
    assembledWord ⟨.dgen, [.num n]⟩ = some (0x2000#16 ||| BitVec.ofNat 16 n) ∧
    assembledWord ⟨.dhrs, [.num n]⟩ = some (0x3000#16 ||| BitVec.ofNat 16 n) ∧
    assembledWord ⟨.dmer, [.num n]⟩ = some (0x4000#16 ||| BitVec.ofNat 16 n) ∧
    assembledWord ⟨.edp, [.num n]⟩ = some (0x5000#16 ||| BitVec.ofNat 16 n) ∧
    ∀ m : Mer, assembledWord ⟨.ehrs, [.num n, .mer m]⟩ =
      some (0x6000#16 ||| (m.code.setWidth 16 <<< 8) ||| BitVec.ofNat 16 n)) ∧
  assembledWord ⟨.rdt, []⟩ = some 0x8000#16 ∧ assembledWord ⟨.rdm, []⟩ = some 0x9000#16 ∧
  (∀ (r : Rec) (m : Mer), assemble ⟨.wrt, [.record ((blockToList r).map (·.toNat)), .mer m]⟩ = some (.wrt r m) ∧
    (encode (.wrt r m)).cw = 0xA000#16 ||| (m.code.setWidth 16 <<< 8) ∧ (encode (.wrt r m)).wrec = r)

/-- R65: the meridian's code, in commands and in responses: the three values' codes, 11 no value, and no response carries
11. -/
def Obligations.MeridianCodeElevenNeverOccurs : Prop :=
  Mer.code .am = 0b00#2 ∧ Mer.code .pm = 0b01#2 ∧ Mer.code .h24 = 0b10#2 ∧
  (∀ c m, Mer.ofCode? c = some m ↔ Mer.code m = c) ∧ Mer.ofCode? 0b11#2 = none ∧
  (∀ r : Response, merField r.word ≠ 0b11#2) ∧
  (∀ (c : Command) (i : Instr), decode c = .ok i → merField c.cw ≠ 0b11#2)

/-- R72, R73: the response word's fields, `op st m val`; the status codes; a failure never shows 00, also for an error
beyond the three named ones, whose code is the model's free value (log entry 12). -/
def Obligations.ResponseWordHasItsFields : Prop :=
  (∀ r : Response, opField r.word = r.op.code ∧ rsvField r.word = r.status.code ∧ merField r.word = r.m.code ∧
    byteField r.word = r.val) ∧
  Status.code .ok = 0b00#2 ∧ Status.code (.fail .timeout) = 0b01#2 ∧ Status.code (.fail .nack) = 0b10#2 ∧
  Status.code (.fail .arbLost) = 0b11#2 ∧ ∀ e, Status.code (.fail e) ≠ 0b00#2

/-! ### The machine as a whole -/

/-- R104, R68: a step of an idle core whose next input is a command word that decodes to `i` is `exec i`, with the command
taken off the inputs. The second clause, the same for a word placed by `withFetchWord` in any state, is the model's choice
of what placing a word means (log entry 5): the core idle, nothing outstanding, the word offered. -/
def Obligations.StepRunsTheDecodedCommand : Prop :=
  (∀ (s : State) (c : Command) (i : Instr) (rest : List Input), s.phase = .idle →
    s.inputs = .command c :: rest → decode c = .ok i → step s = exec i { s with inputs := rest }) ∧
  (∀ (s : State) (nbits w : Nat) (i : Instr), decodeTableWord nbits w = some i →
    step (s.withFetchWord nbits w) = exec i { s with phase := .idle, bus := .quiet })

/-- R104: a command is accepted only in phase IDLE. While the core waits every command's meaning is refused as busy, and a
command at the head of the inputs stays there while the transaction goes on. -/
def Obligations.CommandsWaitWhileTheCoreWaits : Prop :=
  (∀ (s : State) (i : Instr), s.phase ≠ .idle → exec i s = .refused .busy) ∧
  (∀ (s : State) (c : Command) (rest : List Input), coherent s = true → s.phase ≠ .idle →
    s.inputs = .command c :: rest →
    ∃ t, step s = .next t ∧ t.inputs = s.inputs ∧
      ((∃ r, t.phase = s.phase ∧ t.bus = .answered r ∧ t.responses = s.responses) ∨
       (∃ r, t.phase = .idle ∧ t.bus = .quiet ∧ t.responses = s.responses ++ [r])))

/-- R100: whatever moves, from every state, the phase moves as the table says (a reset goes to IDLE, R130). -/
def Obligations.PhaseMovesByTheTable : Prop :=
  ∀ s t : State, step s = .next t → t.phase ∈ phaseMoves s.phase

/-- R44, R100, R52(c): every step keeps the phase and the bus channel coherent. -/
def Obligations.EveryStepKeepsCoherence : Prop :=
  ∀ s t : State, coherent s = true → step s = .next t → coherent t = true

/-- R37, R130: after reset: IDLE, no response pending, no request outstanding, no command offered (log entry 5), and the
state is coherent. -/
def Obligations.ResetIsIdleAndCoherent : Prop :=
  State.reset.phase = .idle ∧ State.reset.responses = [] ∧ State.reset.bus = .quiet ∧ State.reset.inputs = [] ∧
  coherent State.reset = true

/-- R44: a request outstanding after any step from a coherent state is one of the three of the list, with every field, and
the one of the phase; a waiting core sends none (no retry), an idle one only on the command of that row. -/
def Obligations.OnlyListedRequestsAreSent : Prop :=
  ∀ (s t : State) (q : BusReq), coherent s = true → step s = .next t → t.bus = .serving q →
    ((t.phase = .waitRdt ∧ q = ⟨.read, 0b1101000#7, 0x00#8, 1, 8, Config.tReadMs, []⟩) ∨
     (t.phase = .waitRdm ∧ q = ⟨.read, 0b1101000#7, 0x02#8, 1, 1, Config.tReadMs, []⟩) ∨
     (t.phase = .waitWrt ∧ q = ⟨.write, 0b1101000#7, 0x00#8, 1, 8, Config.tWriteMs,
       [t.buf.seconds, t.buf.minutes, t.buf.hours, t.buf.day, t.buf.date, t.buf.month, t.buf.year, t.buf.control]⟩)) ∧
    (s.phase ≠ .idle → s.bus = .serving q ∧ t.phase = s.phase) ∧
    (s.phase = .idle → ∃ c i rest, s.inputs = .command c :: rest ∧ decode c = .ok i ∧
      ((i = .rdt ∧ t.phase = .waitRdt) ∨ (i = .rdm ∧ t.phase = .waitRdm) ∨ (i.op = .wrt ∧ t.phase = .waitWrt)))

/-- R100, R105, R114, R116: one response per command, at its completion. Apart from a reset (R130), a step sends at most one
response, and then the core is idle after it. A waiting core sends one exactly when it becomes idle, of the operation that
waited; an idle core sends one exactly when it accepts a codec command, of that command. -/
def Obligations.AtMostOneResponsePerStep : Prop :=
  ∀ s t : State, step s = .next t → (∀ rest, s.inputs ≠ .reset :: rest) →
    (t.responses = s.responses ∨ ∃ r, t.responses = s.responses ++ [r] ∧ t.phase = .idle) ∧
    (s.phase ≠ .idle → t.phase = .idle → ∃ r, t.responses = s.responses ++ [r] ∧
      (s.phase = .waitRdt → r.op = .rdt) ∧ (s.phase = .waitRdm → r.op = .rdm) ∧ (s.phase = .waitWrt → r.op = .wrt)) ∧
    (s.phase ≠ .idle → t.phase ≠ .idle → t.responses = s.responses) ∧
    (s.phase = .idle → ∀ c i rest, s.inputs = .command c :: rest → decode c = .ok i →
      (i.op.isTransaction = false → t.phase = .idle ∧ ∃ r, t.responses = s.responses ++ [r] ∧ r.op = i.op) ∧
      (i.op.isTransaction = true → t.phase ≠ .idle ∧ t.responses = s.responses)) ∧
    (s.phase = .idle → (∀ c rest, s.inputs ≠ .command c :: rest) → t.responses = s.responses)

/-- R110, R111: a response reports a failure when and only when the transport's answer was `fail(e)`, and it reports that
cause; so the codec commands never fail. A failed command is not tried again: the core is idle, nothing is outstanding. -/
def Obligations.FailuresAreTheTransportsOwn : Prop :=
  ∀ (s t : State) (r : Response) (e : BusErr), coherent s = true → step s = .next t →
    t.responses = s.responses ++ [r] → (r.status = .fail e ↔ s.bus = .answered (.fail e)) ∧
      (r.status = .fail e → r.op.isTransaction = true ∧ t.phase = .idle ∧ t.bus = .quiet)

/-- R59, R22(b): S11. A read that fails leaves nothing in the core: a later `RDT` answers what it would have answered
without it, whatever the failed command was and whatever the cause. In the reference environment of R57: no peripheral
step. That the registers are the same after the failed read is R50's decision D16, ASSUMED by the spec (log entry 7). -/
def Obligations.FailedReadLeavesNoTrace : Prop :=
  ∀ (s : State) (i : Instr) (e : BusErr) (rest : List Input), i = .rdt ∨ i = .rdm → silentInputs rest = true → s.phase = .idle → s.bus = .quiet →
    s.inputs = .command (encode i) :: .answer (.fail e) :: (faultFreeRun [.rdt] ++ rest) →
    ∃ t t' r r' r1, runSteps 6 s = .next t ∧
      runSteps 3 { s with inputs := faultFreeRun [.rdt] ++ rest } = .next t' ∧
      t.responses = s.responses ++ [r1, r] ∧ t'.responses = s.responses ++ [r'] ∧ r1.status = .fail e ∧
      r.op = r'.op ∧ r.status = r'.status ∧ r.rrec = r'.rrec ∧
      t.phase = t'.phase ∧ t.bus = t'.bus ∧ t.buf = t'.buf ∧ t.periph = t'.periph ∧ t.inputs = t'.inputs

/-- R101, R22(b): what a successful `RDT` answers is a function of the eight registers alone: two idle machines with the
same registers get the same record, whatever else differs. -/
def Obligations.RecordDependsOnTheRegistersOnly : Prop :=
  ∀ (s s' : State) (rest rest' : List Input), silentInputs rest = true → silentInputs rest' = true → s.phase = .idle → s.bus = .quiet → s'.phase = .idle → s'.bus = .quiet →
    s.periph = s'.periph → s.inputs = faultFreeRun [.rdt] ++ rest → s'.inputs = faultFreeRun [.rdt] ++ rest' →
    ∃ t t' r r' rec, runSteps 3 s = .next t ∧ runSteps 3 s' = .next t' ∧
      t.responses = s.responses ++ [r] ∧ t'.responses = s'.responses ++ [r'] ∧
      r.rrec = some rec ∧ r'.rrec = some rec ∧ decodesTo s.periph rec

/-- R26, R50, R103, R130: only `WRT` writes the peripheral. From a coherent state the registers change only by the
peripheral's own step (named by the run, alone or inside a torn transfer, log entry 10; or free while a request is
outstanding and the run names no answer), or while `WRT` waits. That a read the transport serves leaves them is R50's decision D16, ASSUMED by the spec (log entry 7); that a reset
of a waiting read leaves them is the model's choice (log entry 14). -/
def Obligations.OnlyWrtChangesTheRegisters : Prop :=
  ∀ s t : State, coherent s = true → step s = .next t → t.periph ≠ s.periph →
    s.phase = .waitWrt ∨ (∃ p rest, s.inputs = .periphStep p :: rest) ∨
    (∃ ms rest q, s.inputs = .answer (.torn ms) :: rest ∧ s.bus = .serving q ∧ t.periph = lastMoment s.periph ms) ∨
    (silent s = true ∧ ∃ q, s.bus = .serving q)

/-- R25, R104, R105: from a coherent state no step is refused, as long as the next input can be followed (a command word
that is not reserved; no answer without a request). -/
def Obligations.CoherentMachineNeverStops : Prop :=
  ∀ s : State, coherent s = true → followable s = true → ∃ t, step s = .next t

/-- R105, R58, R106: a waiting core with no inputs left is idle again within two steps, with exactly one more response of
the operation that waited. -/
def Obligations.WaitingEndsInTwoSteps : Prop :=
  ∀ s : State, coherent s = true → s.phase ≠ .idle → s.inputs = [] →
    ∃ t r, runSteps 2 s = .next t ∧ t.phase = .idle ∧ t.bus = .quiet ∧ t.responses = s.responses ++ [r] ∧
      (s.phase = .waitRdt → r.op = .rdt) ∧ (s.phase = .waitRdm → r.op = .rdm) ∧ (s.phase = .waitWrt → r.op = .wrt)

/-- R106: "every run of n commands ends after n responses". For every list of commands, with steps of the peripheral and
pauses wherever they fall among them, and the transport's answers free values, the run is over after at most three steps a
command and one for another input (the model's schedule, log entry 8), with one response to each command, in order. The
second clause is the run that names no move of the environment at all. -/
def Obligations.EveryRunOfCommandsEnds : Prop :=
  (∀ s : State, s.phase = .idle → s.bus = .quiet → openInputs s.inputs = true →
    ∃ k t rs, k ≤ runLength s.inputs ∧ runSteps k s = .next t ∧ runOver t = true ∧ t.inputs = [] ∧
      t.responses = s.responses ++ rs ∧ rs.map (·.op) = commandOps s.inputs) ∧
  (∀ (is : List Instr) (s : State), s.phase = .idle → s.bus = .quiet → s.inputs = commandRun is →
    ∃ k t rs, k ≤ 3 * is.length ∧ runSteps k s = .next t ∧ runOver t = true ∧ t.inputs = [] ∧
      t.responses = s.responses ++ rs ∧ rs.map (·.op) = is.map (·.op))

/-- R130: a reset at any moment, from every state: IDLE, no response pending, nothing outstanding; the peripheral is not
touched, unless a write was in progress. The other inputs stay, and the response channel is emptied (log entries 4, 14). -/
def Obligations.ResetAtAnyMoment : Prop :=
  ∀ (s : State) (rest : List Input), s.inputs = .reset :: rest →
    ∃ t, step s = .next t ∧ t.phase = .idle ∧ t.responses = [] ∧ t.bus = .quiet ∧ t.inputs = rest ∧
      coherent t = true ∧ (s.phase ≠ .waitWrt → t.periph = s.periph)

/-- R106, R115: a run that is over stays over, whatever of the surroundings still moves: no step sends a response (a reset
empties the channel, log entry 4) or, but for a reset, changes the buffer; the peripheral "may go on changing `P`". With no
inputs left nothing changes at all, the model's choice of log entry 21. -/
def Obligations.IdleCoreWaits : Prop :=
  (∀ s t : State, runOver s = true → step s = .next t → runOver t = true ∧
    ((∀ rest, s.inputs ≠ .reset :: rest) → t.responses = s.responses ∧ t.buf = s.buf)) ∧
  (∀ (s : State) (p : Regs) (rest : List Input), runOver s = true → s.inputs = .periphStep p :: rest →
    ∃ t, step s = .next t ∧ runOver t = true ∧ t.periph = p ∧ t.responses = s.responses) ∧
  (∀ s : State, runOver s = true → s.inputs = [] → ∀ k, runSteps k s = .next s)

/-! ### Laws of the codec, and hazards -/

/-- R95: the round-trip laws, each on its range, and the first value each fails at. -/
def Obligations.CodecRoundTripLaws : Prop :=
  (∀ t o : Nat, t ≤ 5 → o ≤ 9 → (decGen (encDp (BitVec.ofNat 8 (t * 10 + o)))).toNat = t * 10 + o) ∧
  (∀ v : Dec, v.toNat ≤ 159 → decGen (encDp v) = v) ∧ decGen (encDp 160#8) ≠ 160#8 ∧
  (∀ v : Dec, v.toNat ≤ 79 → decSec (encDp v) = v) ∧ decSec (encDp 80#8) = 0#8 ∧
  (∀ h : Dec, h.toNat ≤ 39 → decHrs (encHrs h .h24) = h ∧ decMer (encHrs h .h24) = .h24) ∧
  decHrs (encHrs 40#8 .h24) ≠ 40#8 ∧ decMer (encHrs 40#8 .h24) ≠ .h24 ∧
  (∀ (h : Dec) (m : Mer), m ≠ .h24 → h.toNat ≤ 19 → decHrs (encHrs h m) = h) ∧
  (∀ m : Mer, m ≠ .h24 → decHrs (encHrs 20#8 m) ≠ 20#8) ∧
  (∀ (h : Dec) (m : Mer), m ≠ .h24 → decMer (encHrs h m) = m) ∧
  (∀ (r : Rec) (m : Mer), legalRecord r m = true → exactRecord r m = true)

/-- R38(a): the zeroing of the scratch buffer is unobservable: whatever stood in it, the packed buffer is the same. -/
def Obligations.ScratchZeroingNeverShows : Prop :=
  ∀ (x : Block) (r : Rec) (m : Mer), packInto x r m = packBuffer r m

/-- R137: `WRT` writes bit 7 of register 0x00 as bit 7 of the digit pair: 0 below 80, 1 from 80 to 159; a read-modify-write
of a seconds value below 80 writes 0 whatever it was. -/
def Obligations.WrtAlwaysWritesTheOscillatorFlag : Prop :=
  (∀ (r : Rec) (m : Mer), r.seconds.toNat < 80 → (packBuffer r m).seconds.getLsbD 7 = false) ∧
  (∀ (r : Rec) (m : Mer), 80 ≤ r.seconds.toNat → r.seconds.toNat ≤ 159 →
    (packBuffer r m).seconds.getLsbD 7 = true) ∧
  (∀ (d : Regs) (m : Mer), secondsValue d.seconds < 80 →
    (packBuffer (decodeBlock d) m).seconds.getLsbD 7 = false)

/-- R136: a record read is written back with some meridian `m'`. The mode and meridian written are `m'`, whatever stood
there; the hours byte is kept exactly when `m'` is the one the byte held, which is the one `RDM` reads. So a 12-hour time
written back with H24, and a 24-hour time written back with AM or PM, changes the mode; hour 11 PM with H24 becomes 0x11. -/
def Obligations.ModeIsLostWithoutTheMeridian : Prop :=
  (∀ (r d : Rec) (m m' : Mer), legalHour r.hours m = true → d.hours = (packBuffer r m).hours →
    decMer d.hours = m ∧
    decMer (packBuffer (decodeBlock d) m').hours = m' ∧
    ((packBuffer (decodeBlock d) m').hours = d.hours ↔ m' = m)) ∧
  (∀ (r d : Rec) (m : Mer), legalHour r.hours m = true → d.hours = (packBuffer r m).hours →
    (packBuffer (decodeBlock d) (decMer d.hours)).hours = d.hours) ∧
  (∀ (r d : Rec) (m : Mer), m ≠ .h24 → legalHour r.hours m = true → d.hours = (packBuffer r m).hours →
    decMer (packBuffer (decodeBlock d) .h24).hours = .h24) ∧
  (∀ (r d : Rec) (m' : Mer), m' ≠ .h24 → legalHour r.hours .h24 = true → d.hours = (packBuffer r .h24).hours →
    decMer (packBuffer (decodeBlock d) m').hours ≠ .h24) ∧
  encHrs (decHrs 0x71#8) .h24 = 0x11#8

/-- R138: a generic byte with bit 7 set decodes 80 above the same byte without it. -/
def Obligations.GenericBitSevenAddsEighty : Prop :=
  ∀ b : Byte, b.getLsbD 7 = true → (decGen b).toNat = (decGen (b &&& 0x7F#8)).toNat + 80

/-- R133: the exact damage of each out-of-range value in `WRT`, row by row of the rule's table: the byte written, as
arithmetic, and what the rule says of it. The rows are the issue step's buffer; from 160 up the cut is D11's. -/
def Obligations.OutOfRangeOperandsPackAsListed : Prop :=
  ∀ (r : Rec) (m : Mer) (s : State), s.phase = .idle → ∃ t b, exec (.wrt r m) s = .next t ∧ t.buf = b ∧
    -- seconds and minutes, 60 to 79: tens digit 6 or 7, flag bit 7 still 0
    (60 ≤ r.seconds.toNat → r.seconds.toNat ≤ 79 → b.seconds = digitPair r.seconds ∧
      6 ≤ bits b.seconds 4 3 ∧ bits b.seconds 0 4 = r.seconds.toNat % 10 ∧ b.seconds.getLsbD 7 = false) ∧
    (60 ≤ r.minutes.toNat → r.minutes.toNat ≤ 79 → b.minutes = digitPair r.minutes ∧
      6 ≤ bits b.minutes 4 3 ∧ bits b.minutes 0 4 = r.minutes.toNat % 10 ∧ b.minutes.getLsbD 7 = false) ∧
    -- seconds, 80 to 159: the flag is set, and the value reads back as v - 80
    (80 ≤ r.seconds.toNat → r.seconds.toNat ≤ 159 → b.seconds = digitPair r.seconds ∧
      b.seconds.getLsbD 7 = true ∧ secondsValue b.seconds = r.seconds.toNat - 80) ∧
    -- minutes, day, date, month, 80 to 159: bit 7 is set, and the value still reads back
    (80 ≤ r.minutes.toNat → r.minutes.toNat ≤ 159 → b.minutes = digitPair r.minutes ∧
      b.minutes.getLsbD 7 = true ∧ genericValue b.minutes = r.minutes.toNat) ∧
    (80 ≤ r.day.toNat → r.day.toNat ≤ 159 → b.day = digitPair r.day ∧
      b.day.getLsbD 7 = true ∧ genericValue b.day = r.day.toNat) ∧
    (80 ≤ r.date.toNat → r.date.toNat ≤ 159 → b.date = digitPair r.date ∧
      b.date.getLsbD 7 = true ∧ genericValue b.date = r.date.toNat) ∧
    (80 ≤ r.month.toNat → r.month.toNat ≤ 159 → b.month = digitPair r.month ∧
      b.month.getLsbD 7 = true ∧ genericValue b.month = r.month.toNat) ∧
    -- day 0 and 8 to 79, date 0 and 32 to 79, month 0 and 13 to 79: well-formed digit pairs
    (r.day.toNat = 0 ∨ 8 ≤ r.day.toNat ∧ r.day.toNat ≤ 79 → b.day = digitPair r.day ∧
      bits b.day 4 4 = r.day.toNat / 10 ∧ bits b.day 0 4 = r.day.toNat % 10) ∧
    (r.date.toNat = 0 ∨ 32 ≤ r.date.toNat ∧ r.date.toNat ≤ 79 → b.date = digitPair r.date ∧
      bits b.date 4 4 = r.date.toNat / 10 ∧ bits b.date 0 4 = r.date.toNat % 10) ∧
    (r.month.toNat = 0 ∨ 13 ≤ r.month.toNat ∧ r.month.toNat ≤ 79 → b.month = digitPair r.month ∧
      bits b.month 4 4 = r.month.toNat / 10 ∧ bits b.month 0 4 = r.month.toNat % 10) ∧
    -- year, 100 to 159: the high nibble is no decimal digit, and the value still reads back
    (100 ≤ r.year.toNat → r.year.toNat ≤ 159 → b.year = digitPair r.year ∧
      10 ≤ bits b.year 4 4 ∧ genericValue b.year = r.year.toNat) ∧
    -- hours with H24, 24 to 39: reads back exactly
    (m = .h24 → 24 ≤ r.hours.toNat → r.hours.toNat ≤ 39 → b.hours = digitPair r.hours ∧
      hoursValue b.hours = r.hours.toNat ∧ meridianOf b.hours = .h24) ∧
    -- hours with H24, 40 to 79: bit 6 is set; mode, meridian and hour all read back wrong
    (m = .h24 → 40 ≤ r.hours.toNat → r.hours.toNat ≤ 79 → b.hours = digitPair r.hours ∧
      b.hours.getLsbD 6 = true ∧ meridianOf b.hours ≠ .h24 ∧ hoursValue b.hours ≠ r.hours.toNat) ∧
    -- hours with AM or PM, 0 and 13 to 19: 0x40 or 0x60 over the digit pair; reads back exactly
    (m ≠ .h24 → r.hours.toNat = 0 ∨ 13 ≤ r.hours.toNat ∧ r.hours.toNat ≤ 19 →
      b.hours = (if m = .pm then 0x60#8 else 0x40#8) ||| digitPair r.hours ∧
      hoursValue b.hours = r.hours.toNat ∧ meridianOf b.hours = m) ∧
    -- hours with AM or PM, 20 to 39: bit 5 overwritten; the tens digit loses its weight-2 bit
    (m ≠ .h24 → 20 ≤ r.hours.toNat → r.hours.toNat ≤ 39 → isHoursByte r.hours m b.hours ∧
      hoursValue b.hours = r.hours.toNat - 20 ∧ meridianOf b.hours = m) ∧
    -- any but control, 160 to 255: the high bit of the tens is lost
    (∀ v x : Byte, (v, x) ∈ [(r.seconds, b.seconds), (r.minutes, b.minutes), (r.day, b.day), (r.date, b.date),
        (r.month, b.month), (r.year, b.year)] → 160 ≤ v.toNat →
      x.toNat = 16 * (v.toNat / 10 - 16) + v.toNat % 10) ∧
    (160 ≤ r.hours.toNat → isHoursByte r.hours m b.hours ∧
      (digitPair r.hours).toNat = 16 * (r.hours.toNat / 10 - 16) + r.hours.toNat % 10) ∧
    -- control: the byte itself
    b.control = r.control

/-- R5, R120: the write timeout is shorter than the read timeout, whatever the two are. -/
def Obligations.WriteTimeoutIsShorter : Prop := Config.tWriteMs < Config.tReadMs

/-! ### A named answer -/

/-- R56(a), R58, R104: where the run names the transport's answer, the next step is the transport serving the outstanding
request with it, in every state; and from a coherent state it goes through: the core has the answer, a failure as it was
given, and has neither moved nor responded; a read takes each byte at one instant or at its own moment and leaves the
registers as they were or as the peripheral's last step in it did (D16, log entries 7, 10); a successful write stores the
packed buffer, torn or not (R56(c)). Of the registers after a failed write nothing is said (R56(d)). -/
def Obligations.NamedAnswerIsServed : Prop :=
  (∀ (s : State) (q : BusReq) (a : Answer) (rest : List Input), s.bus = .serving q → s.inputs = .answer a :: rest →
    step s = serve q a { s with inputs := rest }) ∧
  (∀ (s : State) (q : BusReq) (a : Answer) (rest : List Input), coherent s = true → s.bus = .serving q →
    s.inputs = .answer a :: rest →
    ∃ t r, step s = .next t ∧ t.bus = .answered r ∧ coherent t = true ∧ t.phase = s.phase ∧ t.buf = s.buf ∧
      t.responses = s.responses ∧ t.inputs = rest ∧
      (∀ e, a = .fail e → r = .fail e) ∧
      (a = .ok → s.phase = .waitRdt → r = .ok (blockToList s.periph)) ∧
      (a = .ok → s.phase = .waitRdm → r = .ok [s.periph.hours]) ∧
      (a = .ok → s.phase = .waitWrt → r = .ok [] ∧ t.periph = s.buf) ∧
      (∀ ms, a = .torn ms → s.phase = .waitRdt → t.periph = lastMoment s.periph ms ∧ ∃ d, r = .ok d ∧ d.length = 8 ∧
        ∀ i, i < 8 → d[i]? = readByte (momentAt s.periph ms i) i) ∧
      (∀ ms, a = .torn ms → s.phase = .waitRdm → t.periph = lastMoment s.periph ms ∧
        r = .ok [(momentAt s.periph ms 0).hours]) ∧
      (∀ ms, a = .torn ms → s.phase = .waitWrt → r = .ok [] ∧ t.periph = s.buf) ∧
      (s.phase ≠ .waitWrt → (∀ ms, a ≠ .torn ms) → t.periph = s.periph))

/-- R49, R56(b), R140: "Whether the eight bytes of a bulk read are a snapshot of one instant" may not be assumed. For every
list of moments, `RDT` with that torn transfer answers OK with the record of the bytes, each register at its own moment; and
there is a run whose record is of no contents the registers ever held in it. How the moments are named is log entry 10. -/
def Obligations.BulkReadNeedNotBeASnapshot : Prop :=
  (∀ (s : State) (ms : List Regs) (rest : List Input), silentInputs rest = true → s.phase = .idle → s.bus = .quiet →
    s.inputs = .command (encode .rdt) :: .answer (.torn ms) :: rest →
    ∃ t r rec, runSteps 3 s = .next t ∧ t.responses = s.responses ++ [r] ∧ r.op = .rdt ∧ r.status = .ok ∧
      r.rrec = some rec ∧ t.periph = lastMoment s.periph ms ∧ t.phase = .idle ∧ t.bus = .quiet ∧ t.inputs = rest ∧
      decodesTo
        ⟨(momentAt s.periph ms 0).seconds, (momentAt s.periph ms 1).minutes, (momentAt s.periph ms 2).hours,
         (momentAt s.periph ms 3).day, (momentAt s.periph ms 4).date, (momentAt s.periph ms 5).month,
         (momentAt s.periph ms 6).year, (momentAt s.periph ms 7).control⟩ rec) ∧
  (∃ (s : State) (ms : List Regs) (t : State) (r : Response) (rec : Rec), coherent s = true ∧
    s.inputs = [.command (encode .rdt), .answer (.torn ms)] ∧ runSteps 3 s = .next t ∧ t.responses = s.responses ++ [r] ∧
    r.status = .ok ∧ r.rrec = some rec ∧ ∀ p, p = s.periph ∨ p ∈ ms → ¬ decodesTo p rec)
end

