-- ==== Sys2Proof/Laws/Block.lean ====
section
/-! SUPPORT. Blocks: the list view, read after write, and bulk transfers. -/

namespace Sys2Proof.Machine

@[simp] theorem blockOfList_blockToList (b : Block) : blockOfList (blockToList b) = some b := rfl

@[simp] theorem blockToList_length (b : Block) : (blockToList b).length = 8 := rfl

/-- A list of eight bytes is some block's list. -/
theorem exists_block_of_length {d : List Byte} (h : d.length = 8) : ∃ b, d = blockToList b ∧ blockOfList d = some b := by
  match d, h with
  | [s, mi, hh, dw, dt, mo, y, c], _ => exact ⟨⟨s, mi, hh, dw, dt, mo, y, c⟩, rfl, rfl⟩

/-- A register has a byte exactly at addresses 0x00 to 0x07. -/
theorem readByte_isSome (b : Block) (i : Nat) : (readByte b i).isSome = decide (i < 8) := by
  by_cases h : i < 8 <;> simp [readByte, h]

/-- Read after write: the address written, and every other. -/
theorem readByte_writeByte (b : Block) (i j : Nat) (v : Byte) :
    readByte (writeByte b i v) j = if i = j ∧ i < 8 then some v else readByte b j := by
  by_cases hi : i < 8
  · by_cases hj : j < 8
    · interval_cases i <;> interval_cases j <;> rfl
    · have h1 (c : Block) : readByte c j = none := by simp [readByte]; omega
      rw [h1, h1, if_neg (by omega)]
  · rw [if_neg (by omega)]
    match i, hi with
    | n + 8, _ => rfl

/-- Blocks that read alike at every address are equal. -/
theorem block_ext_readByte {b c : Block} (h : ∀ a, readByte b a = readByte c a) : b = c := by
  have hl : blockToList b = blockToList c := List.ext_getElem? h
  have : some b = some c := by rw [← blockOfList_blockToList b, hl, blockOfList_blockToList]
  exact Option.some.inj this

@[simp] theorem bulkRead_all (p : Regs) : bulkRead p 0 8 = blockToList p := rfl

@[simp] theorem bulkRead_hours (p : Regs) : bulkRead p 2 1 = [p.hours] := rfl

theorem bulkRead_length (p : Regs) {reg len : Nat} (h : reg + len ≤ 8) : (bulkRead p reg len).length = len := by
  simp [bulkRead]; omega

theorem bulkRead_getElem? (p : Regs) (reg len i : Nat) :
    (bulkRead p reg len)[i]? = if i < len then readByte p (reg + i) else none := by
  simp [bulkRead, readByte, List.getElem?_take, List.getElem?_drop]

/-- A bulk write stores its data at ascending addresses and leaves every other address alone. -/
theorem readByte_bulkWrite (d : List Byte) : ∀ (p : Regs) (reg a : Nat), reg + d.length ≤ 8 →
    readByte (bulkWrite p reg d) a = if reg ≤ a ∧ a < reg + d.length then d[a - reg]? else readByte p a := by
  induction d with
  | nil => intro p reg a _; simp [bulkWrite]
  | cons b bs ih =>
    intro p reg a h
    have hl : (b :: bs).length = bs.length + 1 := rfl
    rw [hl] at h ⊢
    rw [bulkWrite, ih _ _ _ (by omega), readByte_writeByte]
    rcases Nat.lt_trichotomy a reg with hlt | rfl | hgt
    · rw [if_neg (by omega), if_neg (by omega), if_neg (by omega)]
    · rw [if_neg (by omega), if_pos ⟨rfl, by omega⟩, if_pos (by omega), Nat.sub_self, List.getElem?_cons_zero]
    · obtain ⟨k, rfl⟩ := Nat.exists_eq_add_of_lt hgt
      have e1 : reg + k + 1 - (reg + 1) = k := by omega
      have e2 : reg + k + 1 - reg = k + 1 := by omega
      rw [e1, e2, List.getElem?_cons_succ, if_neg (show ¬(reg = reg + k + 1 ∧ reg < 8) by omega)]
      by_cases hk : k < bs.length
      · rw [if_pos (by omega), if_pos (by omega)]
      · rw [if_neg (by omega), if_neg (by omega)]

@[simp] theorem momentAt_nil (p : Regs) (i : Nat) : momentAt p [] i = p := rfl
@[simp] theorem momentAt_cons_zero (p m : Regs) (ms : List Regs) : momentAt p (m :: ms) 0 = m := rfl
@[simp] theorem momentAt_cons_succ (p m : Regs) (ms : List Regs) (i : Nat) :
    momentAt p (m :: ms) (i + 1) = momentAt m ms i := rfl
@[simp] theorem lastMoment_nil (p : Regs) : lastMoment p [] = p := rfl
@[simp] theorem lastMoment_cons (p m : Regs) (ms : List Regs) : lastMoment p (m :: ms) = lastMoment m ms := rfl

/-- The moments after the first are those of what follows it. -/
theorem momentAt_tail (p : Regs) (ms : List Regs) (i : Nat) :
    momentAt (momentAt p ms 0) ms.tail i = momentAt p ms (i + 1) := by
  cases ms <;> rfl

theorem tornRead_length : ∀ (p : Regs) (ms : List Regs) (reg len : Nat), reg + len ≤ 8 →
    (tornRead p ms reg len).length = len := by
  intro p ms reg len
  induction len generalizing p ms reg with
  | zero => intro _; rfl
  | succ len ih =>
    intro h
    rw [tornRead, List.length_append, bulkRead_length _ (by omega), ih _ _ _ (by omega)]
    omega

/-- Each byte of a torn read is its register's content at its own moment. -/
theorem tornRead_getElem? : ∀ (p : Regs) (ms : List Regs) (reg len i : Nat), reg + len ≤ 8 → i < len →
    (tornRead p ms reg len)[i]? = readByte (momentAt p ms i) (reg + i) := by
  intro p ms reg len
  induction len generalizing p ms reg with
  | zero => intro i _ hi; omega
  | succ len ih =>
    intro i h hi
    have h1 : (bulkRead (momentAt p ms 0) reg 1).length = 1 := bulkRead_length _ (by omega)
    cases i with
    | zero => rw [tornRead, List.getElem?_append_left (by omega), bulkRead_getElem?, if_pos (by omega)]
    | succ i =>
      rw [tornRead, List.getElem?_append_right (by omega), h1, Nat.add_sub_cancel, ih _ _ _ _ (by omega) (by omega),
        momentAt_tail, show reg + 1 + i = reg + (i + 1) by omega]

/-- Without a step of the peripheral in the transfer a torn read is one at one instant. -/
theorem tornRead_nil (p : Regs) {reg len : Nat} (h : reg + len ≤ 8) : tornRead p [] reg len = bulkRead p reg len := by
  apply List.ext_getElem?
  intro i
  rw [bulkRead_getElem?]
  by_cases hi : i < len
  · rw [tornRead_getElem? p [] reg len i h hi, if_pos hi, momentAt_nil]
  · rw [if_neg hi, List.getElem?_eq_none]
    rw [tornRead_length p [] reg len h]
    omega

/-- The eight bytes of a torn read, each at its own moment. -/
theorem tornRead_all (p : Regs) (ms : List Regs) :
    tornRead p ms 0 8 = blockToList
      ⟨(momentAt p ms 0).seconds, (momentAt p ms 1).minutes, (momentAt p ms 2).hours, (momentAt p ms 3).day,
       (momentAt p ms 4).date, (momentAt p ms 5).month, (momentAt p ms 6).year, (momentAt p ms 7).control⟩ := by
  simp only [← momentAt_tail]
  rfl

/-- A torn read of the hours register alone: its content at the first byte's moment. -/
@[simp] theorem tornRead_hours (p : Regs) (ms : List Regs) : tornRead p ms 2 1 = [(momentAt p ms 0).hours] := rfl

@[simp] theorem bulkWrite_all (p b : Block) : bulkWrite p 0 (blockToList b) = b := by
  cases p; cases b; rfl

end Sys2Proof.Machine
end

