-- ==== Sys2Proof/Laws/Codec.lean ====
section
/-! SUPPORT. What the codec's functions compute, as arithmetic on the byte's number. -/

namespace Sys2Proof.Machine

theorem highNibble_eq (x : Byte) : highNibble x = bits x 4 4 := by
  simp [highNibble, bits, Nat.shiftRight_eq_div_pow]

theorem lowNibble_eq (x : Byte) : lowNibble x = bits x 0 4 := by
  simp [lowNibble, bits]

/-- No decode result is cut (R93). -/
theorem digitsValue_toNat (x : Byte) : (digitsValue x).toNat = highNibble x * 10 + lowNibble x := by
  have h1 : highNibble x < 16 := (x.extractLsb' 4 4).isLt
  have h2 : lowNibble x < 16 := (x.extractLsb' 0 4).isLt
  simp [digitsValue]; omega

theorem decGen_toNat (b : Byte) : (decGen b).toNat = genericValue b := by
  rw [decGen, digitsValue_toNat, highNibble_eq, lowNibble_eq, genericValue]

theorem decSec_toNat : ∀ b : Byte, (decSec b).toNat = secondsValue b := by decide

theorem decHrs_toNat : ∀ b : Byte, (decHrs b).toNat = hoursValue b := by decide

theorem decMer_eq : ∀ b : Byte, decMer b = meridianOf b := by decide

theorem encDp_eq : ∀ v : Dec, encDp v = digitPair v := by decide

theorem decodeBlock_decodesTo (d : Regs) : decodesTo d (decodeBlock d) :=
  ⟨decSec_toNat _, decGen_toNat _, decHrs_toNat _, decGen_toNat _, decGen_toNat _, decGen_toNat _, decGen_toNat _, rfl⟩

/-- R91: the hours byte, bit by bit. -/
theorem encHrs_getLsbD (h : Dec) (m : Mer) (k : Nat) (hk : k < 8) :
    (encHrs h m).getLsbD k =
      if m ≠ .h24 ∧ k = 6 then true else if m ≠ .h24 ∧ k = 5 then decide (m = .pm) else (digitPair h).getLsbD k := by
  have e := encDp_eq h
  cases m <;> interval_cases k <;> simp [encHrs, e]

/-- The zeroed scratch buffer never shows: every position is overwritten (R38). -/
theorem packInto_eq (x : Block) (r : Rec) (m : Mer) :
    packInto x r m = ⟨encDp r.seconds, encDp r.minutes, encHrs r.hours m, encDp r.day, encDp r.date, encDp r.month,
      encDp r.year, r.control⟩ := rfl

end Sys2Proof.Machine
end

