-- ==== Sys2Proof/Laws/Encoding.lean ====
section
/-! SUPPORT. The fields of a command word, the codes, and decoding by format. -/

namespace Sys2Proof

/-- A command word, bit by bit (R68). -/
theorem commandWord_getLsbD (op : Op) (m : BitVec 2) (a : Byte) (i : Nat) :
    (commandWord op m a).getLsbD i =
      if i < 8 then a.getLsbD i else if i < 10 then m.getLsbD (i - 8)
      else if i < 12 then false else op.code.getLsbD (i - 12) := by
  unfold commandWord
  rw [BitVec.getLsbD_append, BitVec.getLsbD_append, BitVec.getLsbD_append]
  by_cases h1 : i < 8
  · simp [h1]
  · have e1 : i - 8 < 2 ↔ i < 10 := by omega
    have e2 : i - 8 - 2 < 2 ↔ i < 12 := by omega
    have e3 : i - 8 - 2 - 2 = i - 12 := by omega
    simp [h1, e1, e2, e3]

@[simp] theorem opField_commandWord (op : Op) (m : BitVec 2) (a : Byte) : opField (commandWord op m a) = op.code := by
  apply BitVec.eq_of_getLsbD_eq
  intro i hi
  rw [opField, BitVec.getLsbD_extractLsb', commandWord_getLsbD]
  simp [hi, show ¬ (12 + i < 8) by omega, show ¬ (12 + i < 10) by omega]

@[simp] theorem rsvField_commandWord (op : Op) (m : BitVec 2) (a : Byte) : rsvField (commandWord op m a) = 0b00#2 := by
  apply BitVec.eq_of_getLsbD_eq
  intro i hi
  rw [rsvField, BitVec.getLsbD_extractLsb', commandWord_getLsbD]
  simp [show ¬ (10 + i < 8) by omega, show 10 + i < 12 by omega]

@[simp] theorem merField_commandWord (op : Op) (m : BitVec 2) (a : Byte) : merField (commandWord op m a) = m := by
  apply BitVec.eq_of_getLsbD_eq
  intro i hi
  rw [merField, BitVec.getLsbD_extractLsb', commandWord_getLsbD]
  simp [hi, show 8 + i < 10 by omega]

@[simp] theorem byteField_commandWord (op : Op) (m : BitVec 2) (a : Byte) : byteField (commandWord op m a) = a := by
  apply BitVec.eq_of_getLsbD_eq
  intro i hi
  rw [byteField, BitVec.getLsbD_extractLsb', commandWord_getLsbD]
  simp [hi]

/-- Every word with zero reserved bits and a known operation is a command word: its fields put together (R68). -/
theorem commandWord_of_fields (cw : Word16) (op : Op) (ho : opField cw = op.code) (hr : rsvField cw = 0b00#2) :
    commandWord op (merField cw) (byteField cw) = cw := by
  apply BitVec.eq_of_getLsbD_eq
  intro i hi
  rw [commandWord_getLsbD]
  have h12 (k : Nat) := congrArg (fun x : BitVec 4 => x.getLsbD k) ho
  have h10 (k : Nat) := congrArg (fun x : BitVec 2 => x.getLsbD k) hr
  simp only [opField, rsvField, BitVec.getLsbD_extractLsb'] at h12 h10
  split_ifs with a b c
  · simp [byteField, a]
  · simp [merField, show i - 8 < 2 by omega, show 8 + (i - 8) = i by omega]
  · have := h10 (i - 10)
    rw [show 10 + (i - 10) = i by omega] at this
    simpa [show i - 10 < 2 by omega] using this.symm
  · have := h12 (i - 12)
    rw [show 12 + (i - 12) = i by omega] at this
    simpa [show i - 12 < 4 by omega] using this.symm

/-- Words are equal when their four fields are. -/
theorem word_eq_iff (v w : Word16) :
    v = w ↔ opField v = opField w ∧ rsvField v = rsvField w ∧ merField v = merField w ∧ byteField v = byteField w := by
  constructor
  · rintro rfl; exact ⟨rfl, rfl, rfl, rfl⟩
  · rintro ⟨h1, h2, h3, h4⟩
    apply BitVec.eq_of_getLsbD_eq
    intro i hi
    have e1 := congrArg (fun x : BitVec 4 => x.getLsbD (i - 12)) h1
    have e2 := congrArg (fun x : BitVec 2 => x.getLsbD (i - 10)) h2
    have e3 := congrArg (fun x : BitVec 2 => x.getLsbD (i - 8)) h3
    have e4 := congrArg (fun x : BitVec 8 => x.getLsbD i) h4
    simp only [opField, rsvField, merField, byteField, BitVec.getLsbD_extractLsb'] at e1 e2 e3 e4
    rcases Nat.lt_or_ge i 8 with h | h
    · simpa [h] using e4
    · rcases Nat.lt_or_ge i 10 with h' | h'
      · simpa [show i - 8 < 2 by omega, show 8 + (i - 8) = i by omega] using e3
      · rcases Nat.lt_or_ge i 12 with h'' | h''
        · simpa [show i - 10 < 2 by omega, show 10 + (i - 10) = i by omega] using e2
        · simpa [show i - 12 < 4 by omega, show 12 + (i - 12) = i by omega] using e1

@[simp] theorem opField_and (v w : Word16) : opField (v &&& w) = opField v &&& opField w := BitVec.extractLsb'_and
@[simp] theorem rsvField_and (v w : Word16) : rsvField (v &&& w) = rsvField v &&& rsvField w := BitVec.extractLsb'_and
@[simp] theorem merField_and (v w : Word16) : merField (v &&& w) = merField v &&& merField w := BitVec.extractLsb'_and
@[simp] theorem byteField_and (v w : Word16) : byteField (v &&& w) = byteField v &&& byteField w := BitVec.extractLsb'_and

/-- The fields as numbers (R68). -/
theorem opField_toNat (cw : Word16) : (opField cw).toNat = cw.toNat / 4096 := by
  have := cw.isLt
  simp [opField, Nat.shiftRight_eq_div_pow]; omega

theorem rsvField_toNat (cw : Word16) : (rsvField cw).toNat = cw.toNat / 1024 % 4 := by
  simp [rsvField, Nat.shiftRight_eq_div_pow]

theorem merField_toNat (cw : Word16) : (merField cw).toNat = cw.toNat / 256 % 4 := by
  simp [merField, Nat.shiftRight_eq_div_pow]

theorem byteField_toNat (cw : Word16) : (byteField cw).toNat = cw.toNat % 256 := by
  simp [byteField]

@[simp] theorem Mer.ofCode?_code (m : Mer) : Mer.ofCode? m.code = some m := by cases m <;> rfl

/-- R65: the code 11, and only it, is no meridian. -/
theorem Mer.ofCode?_eq_none : ∀ c : BitVec 2, Mer.ofCode? c = none ↔ c = 0b11#2 := by decide

theorem Mer.code_of_ofCode? : ∀ (c : BitVec 2) (m : Mer), Mer.ofCode? c = some m → m.code = c := by
  intro c m; revert c; cases m <;> decide

@[simp] theorem Op.ofCode?_code (op : Op) : Op.ofCode? op.code = some op := by cases op <;> rfl

theorem Op.code_of_ofCode? : ∀ (c : BitVec 4) (op : Op), Op.ofCode? c = some op → op.code = c := by
  intro c op; revert c; cases op <;> decide

/-- R69: what each format's decoder asks of a word that has a given operation and zero reserved bits. -/
theorem decode_of_op (c : Command) (op : Op) (ho : opField c.cw = op.code) (hr : rsvField c.cw = 0b00#2) :
    decode c =
      match op with
      | .dsec => decodeB .dsec c.cw
      | .dgen => decodeB .dgen c.cw
      | .dhrs => decodeB .dhrs c.cw
      | .dmer => decodeB .dmer c.cw
      | .edp  => decodeB .edp c.cw
      | .ehrs => decodeMer (.ehrs (byteField c.cw)) c.cw
      | .rdt  => decodeN .rdt c.cw
      | .rdm  => decodeN .rdm c.cw
      | .wrt  => needByteZero c.cw (decodeMer (.wrt c.wrec) c.cw) := by
  simp only [decode, ho, hr, Op.ofCode?_code]
  cases op <;> rfl

/-- A word that decodes has a known operation, the decoded command's, and zero reserved bits. -/
theorem decode_ok_fields {c : Command} {i : Instr} (h : decode c = .ok i) :
    ∃ op, opField c.cw = Op.code op ∧ rsvField c.cw = 0b00#2 := by
  unfold decode at h
  split at h
  · cases h
  · rename_i op hop
    split at h
    · rename_i hr
      exact ⟨op, (Op.code_of_ofCode? _ _ hop).symm, hr⟩
    · cases h

theorem decodeB_ok {f : Byte → Instr} {cw : Word16} {i : Instr} :
    decodeB f cw = .ok i ↔ merField cw = 0b00#2 ∧ i = f (byteField cw) := by
  unfold decodeB; split <;> simp_all [eq_comm]

theorem decodeMer_ok {f : Mer → Instr} {cw : Word16} {i : Instr} :
    decodeMer f cw = .ok i ↔ ∃ m, m.code = merField cw ∧ i = f m := by
  unfold decodeMer
  constructor
  · intro h
    split at h
    · rename_i m hm
      cases h
      exact ⟨m, Mer.code_of_ofCode? _ _ hm, rfl⟩
    · cases h
  · rintro ⟨m, hm, rfl⟩
    rw [← hm, Mer.ofCode?_code]

theorem needByteZero_ok {cw : Word16} {k : Except Reject Instr} {i : Instr} :
    needByteZero cw k = .ok i ↔ byteField cw = 0x00#8 ∧ k = .ok i := by
  unfold needByteZero; split <;> simp_all

theorem decodeN_ok {i j : Instr} {cw : Word16} :
    decodeN i cw = .ok j ↔ byteField cw = 0x00#8 ∧ merField cw = 0b00#2 ∧ j = i := by
  unfold decodeN; rw [needByteZero_ok]; split <;> simp_all [eq_comm]

end Sys2Proof
end

