-- ==== Sys2Proof/Laws/State.lean ====
section
/-! SUPPORT. One lemma per field per update of the state, and per field of the composed updates. -/

namespace Sys2Proof.Machine

variable (s : State)

@[simp] theorem State.withPhase_phase (p : Phase) : (s.withPhase p).phase = p := rfl
@[simp] theorem State.withPhase_buf (p : Phase) : (s.withPhase p).buf = s.buf := rfl
@[simp] theorem State.withPhase_periph (p : Phase) : (s.withPhase p).periph = s.periph := rfl
@[simp] theorem State.withPhase_bus (p : Phase) : (s.withPhase p).bus = s.bus := rfl
@[simp] theorem State.withPhase_responses (p : Phase) : (s.withPhase p).responses = s.responses := rfl
@[simp] theorem State.withPhase_inputs (p : Phase) : (s.withPhase p).inputs = s.inputs := rfl
@[simp] theorem State.withPhase_draws (p : Phase) : (s.withPhase p).draws = s.draws := rfl

@[simp] theorem State.withBuf_phase (b : Block) : (s.withBuf b).phase = s.phase := rfl
@[simp] theorem State.withBuf_buf (b : Block) : (s.withBuf b).buf = b := rfl
@[simp] theorem State.withBuf_periph (b : Block) : (s.withBuf b).periph = s.periph := rfl
@[simp] theorem State.withBuf_bus (b : Block) : (s.withBuf b).bus = s.bus := rfl
@[simp] theorem State.withBuf_responses (b : Block) : (s.withBuf b).responses = s.responses := rfl
@[simp] theorem State.withBuf_inputs (b : Block) : (s.withBuf b).inputs = s.inputs := rfl
@[simp] theorem State.withBuf_draws (b : Block) : (s.withBuf b).draws = s.draws := rfl

@[simp] theorem State.withPeriph_phase (p : Regs) : (s.withPeriph p).phase = s.phase := rfl
@[simp] theorem State.withPeriph_buf (p : Regs) : (s.withPeriph p).buf = s.buf := rfl
@[simp] theorem State.withPeriph_periph (p : Regs) : (s.withPeriph p).periph = p := rfl
@[simp] theorem State.withPeriph_bus (p : Regs) : (s.withPeriph p).bus = s.bus := rfl
@[simp] theorem State.withPeriph_responses (p : Regs) : (s.withPeriph p).responses = s.responses := rfl
@[simp] theorem State.withPeriph_inputs (p : Regs) : (s.withPeriph p).inputs = s.inputs := rfl
@[simp] theorem State.withPeriph_draws (p : Regs) : (s.withPeriph p).draws = s.draws := rfl

@[simp] theorem State.withBus_phase (b : BusState) : (s.withBus b).phase = s.phase := rfl
@[simp] theorem State.withBus_buf (b : BusState) : (s.withBus b).buf = s.buf := rfl
@[simp] theorem State.withBus_periph (b : BusState) : (s.withBus b).periph = s.periph := rfl
@[simp] theorem State.withBus_bus (b : BusState) : (s.withBus b).bus = b := rfl
@[simp] theorem State.withBus_responses (b : BusState) : (s.withBus b).responses = s.responses := rfl
@[simp] theorem State.withBus_inputs (b : BusState) : (s.withBus b).inputs = s.inputs := rfl
@[simp] theorem State.withBus_draws (b : BusState) : (s.withBus b).draws = s.draws := rfl

@[simp] theorem State.withInputs_phase (is : List Input) : (s.withInputs is).phase = s.phase := rfl
@[simp] theorem State.withInputs_buf (is : List Input) : (s.withInputs is).buf = s.buf := rfl
@[simp] theorem State.withInputs_periph (is : List Input) : (s.withInputs is).periph = s.periph := rfl
@[simp] theorem State.withInputs_bus (is : List Input) : (s.withInputs is).bus = s.bus := rfl
@[simp] theorem State.withInputs_responses (is : List Input) : (s.withInputs is).responses = s.responses := rfl
@[simp] theorem State.withInputs_inputs (is : List Input) : (s.withInputs is).inputs = is := rfl
@[simp] theorem State.withInputs_draws (is : List Input) : (s.withInputs is).draws = s.draws := rfl

@[simp] theorem State.drawn_phase : (s.drawn).phase = s.phase := rfl
@[simp] theorem State.drawn_buf : (s.drawn).buf = s.buf := rfl
@[simp] theorem State.drawn_periph : (s.drawn).periph = s.periph := rfl
@[simp] theorem State.drawn_bus : (s.drawn).bus = s.bus := rfl
@[simp] theorem State.drawn_responses : (s.drawn).responses = s.responses := rfl
@[simp] theorem State.drawn_inputs : (s.drawn).inputs = s.inputs := rfl
@[simp] theorem State.drawn_draws : (s.drawn).draws = s.draws + 1 := rfl

@[simp] theorem respond_phase (op : Op) (st : Status) (p : Payload) : (respond op st p s).phase = s.phase := rfl
@[simp] theorem respond_buf (op : Op) (st : Status) (p : Payload) : (respond op st p s).buf = s.buf := rfl
@[simp] theorem respond_periph (op : Op) (st : Status) (p : Payload) : (respond op st p s).periph = s.periph := rfl
@[simp] theorem respond_bus (op : Op) (st : Status) (p : Payload) : (respond op st p s).bus = s.bus := rfl
@[simp] theorem respond_responses (op : Op) (st : Status) (p : Payload) : (respond op st p s).responses = s.responses ++ [responseOf op st p s.draws] := rfl
@[simp] theorem respond_inputs (op : Op) (st : Status) (p : Payload) : (respond op st p s).inputs = s.inputs := rfl
@[simp] theorem respond_draws (op : Op) (st : Status) (p : Payload) : (respond op st p s).draws = s.draws + 1 := rfl

@[simp] theorem sendRequest_phase (ph : Phase) (q : BusReq) : (sendRequest ph q s).phase = ph := rfl
@[simp] theorem sendRequest_buf (ph : Phase) (q : BusReq) : (sendRequest ph q s).buf = s.buf := rfl
@[simp] theorem sendRequest_periph (ph : Phase) (q : BusReq) : (sendRequest ph q s).periph = s.periph := rfl
@[simp] theorem sendRequest_bus (ph : Phase) (q : BusReq) : (sendRequest ph q s).bus = .serving q := rfl
@[simp] theorem sendRequest_responses (ph : Phase) (q : BusReq) : (sendRequest ph q s).responses = s.responses := rfl
@[simp] theorem sendRequest_inputs (ph : Phase) (q : BusReq) : (sendRequest ph q s).inputs = s.inputs := rfl
@[simp] theorem sendRequest_draws (ph : Phase) (q : BusReq) : (sendRequest ph q s).draws = s.draws := rfl

@[simp] theorem endTransaction_phase : (endTransaction s).phase = .idle := rfl
@[simp] theorem endTransaction_buf : (endTransaction s).buf = s.buf := rfl
@[simp] theorem endTransaction_periph : (endTransaction s).periph = s.periph := rfl
@[simp] theorem endTransaction_bus : (endTransaction s).bus = .quiet := rfl
@[simp] theorem endTransaction_responses : (endTransaction s).responses = s.responses := rfl
@[simp] theorem endTransaction_inputs : (endTransaction s).inputs = s.inputs := rfl
@[simp] theorem endTransaction_draws : (endTransaction s).draws = s.draws := rfl

@[simp] theorem raiseTransportFailure_phase (op : Op) (e : BusErr) : (raiseTransportFailure op e s).phase = .idle := rfl
@[simp] theorem raiseTransportFailure_buf (op : Op) (e : BusErr) : (raiseTransportFailure op e s).buf = s.buf := rfl
@[simp] theorem raiseTransportFailure_periph (op : Op) (e : BusErr) : (raiseTransportFailure op e s).periph = s.periph := rfl
@[simp] theorem raiseTransportFailure_bus (op : Op) (e : BusErr) : (raiseTransportFailure op e s).bus = .quiet := rfl
@[simp] theorem raiseTransportFailure_responses (op : Op) (e : BusErr) : (raiseTransportFailure op e s).responses = s.responses ++ [responseOf op (.fail e) {} s.draws] := rfl
@[simp] theorem raiseTransportFailure_inputs (op : Op) (e : BusErr) : (raiseTransportFailure op e s).inputs = s.inputs := rfl
@[simp] theorem raiseTransportFailure_draws (op : Op) (e : BusErr) : (raiseTransportFailure op e s).draws = s.draws + 1 := rfl

@[simp] theorem coreReset_phase : (coreReset s).phase = .idle := rfl
@[simp] theorem coreReset_buf : (coreReset s).buf = Config.anyBuf s.draws := rfl
@[simp] theorem coreReset_periph : (coreReset s).periph = if s.phase = .waitWrt then Config.anyPeriph s.draws else s.periph := rfl
@[simp] theorem coreReset_bus : (coreReset s).bus = .quiet := rfl
@[simp] theorem coreReset_responses : (coreReset s).responses = [] := rfl
@[simp] theorem coreReset_inputs : (coreReset s).inputs = s.inputs := rfl
@[simp] theorem coreReset_draws : (coreReset s).draws = s.draws + 1 := rfl

@[simp] theorem responseOf_op (op : Op) (st : Status) (p : Payload) (n : Nat) : (responseOf op st p n).op = op := rfl
@[simp] theorem responseOf_status (op : Op) (st : Status) (p : Payload) (n : Nat) :
    (responseOf op st p n).status = st := rfl
@[simp] theorem responseOf_val_some (op : Op) (st : Status) (v : Byte) (m : Option Mer) (r : Option Rec) (n : Nat) :
    (responseOf op st { m := m, val := some v, rrec := r } n).val = v := rfl
@[simp] theorem responseOf_m_some (op : Op) (st : Status) (m : Mer) (v : Option Byte) (r : Option Rec) (n : Nat) :
    (responseOf op st { m := some m, val := v, rrec := r } n).m = m := rfl
@[simp] theorem responseOf_rrec_rdt (st : Status) (r : Rec) (m : Option Mer) (v : Option Byte) (n : Nat) :
    (responseOf .rdt st { m := m, val := v, rrec := some r } n).rrec = some r := rfl

end Sys2Proof.Machine
end

