-- ==== Sys2Proof/Laws/Ops.lean ====
section
/-! SUPPORT. One lemma for each shared operation that says everything it can do. -/

namespace Sys2Proof.Machine

theorem whenIdle_idle {s : State} (h : s.phase = .idle) (k : State → Outcome) : whenIdle s k = k s := if_pos h

theorem whenIdle_busy {s : State} (h : s.phase ≠ .idle) (k : State → Outcome) : whenIdle s k = .refused .busy :=
  if_neg h

/-- A command that is accepted is accepted in phase IDLE (R104). -/
theorem whenIdle_next {s t : State} {k : State → Outcome} (h : whenIdle s k = .next t) :
    s.phase = .idle ∧ k s = .next t := by
  by_cases hi : s.phase = .idle
  · exact ⟨hi, by rwa [whenIdle_idle hi] at h⟩
  · rw [whenIdle_busy hi] at h; cases h

/-- Only `RDT`'s response has a record (R72). -/
theorem responseOf_rrec_other {op : Op} (h : op ≠ .rdt) (st : Status) (p : Payload) (n : Nat) :
    (responseOf op st p n).rrec = none := if_neg h

/-- A reset with no write in progress leaves the peripheral's registers as they were (R130). -/
theorem coreReset_periph_of_ne {s : State} (h : s.phase ≠ .waitWrt) : (coreReset s).periph = s.periph := if_neg h

end Sys2Proof.Machine
end

