-- ==== Sys2Proof/Laws/Step.lean ====
section
/-! SUPPORT. What a command's meaning, the complete step, the transport and one move of the machine can do. -/

namespace Sys2Proof.Machine

/-- While the core waits every command is refused. -/
theorem exec_busy {s : State} (h : s.phase ≠ .idle) (i : Instr) : exec i s = .refused .busy := by
  cases i <;>
    simp only [exec, execDsec, execDgen, execDhrs, execDmer, execEdp, execEhrs, execRdt, execRdm, execWrt,
      whenIdle_busy h]

/-- A codec command responds, and that is all it does. -/
theorem exec_codec {i : Instr} (hi : i.op.isTransaction = false) {s : State} (h : s.phase = .idle) :
    ∃ p, exec i s = .next (respond i.op .ok p s) := by
  cases i with
  | rdt | rdm | wrt => cases hi
  | _ =>
    simp only [exec, execDsec, execDgen, execDhrs, execDmer, execEdp, execEhrs, whenIdle_idle h]
    exact ⟨_, rfl⟩

/-- A transaction command sends the request of its row of R44 and waits. -/
theorem exec_transaction {i : Instr} (hi : i.op.isTransaction = true) {s : State} (h : s.phase = .idle) :
    (i = .rdt ∧ exec i s = .next (sendRequest .waitRdt rdtRequest s)) ∨
    (i = .rdm ∧ exec i s = .next (sendRequest .waitRdm rdmRequest s)) ∨
    (∃ r m, i = .wrt r m ∧ exec i s =
      .next (sendRequest .waitWrt (wrtRequest (packBuffer r m)) (s.withBuf (packBuffer r m)))) := by
  cases i with
  | rdt => exact .inl ⟨rfl, by simp only [exec, execRdt, whenIdle_idle h]⟩
  | rdm => exact .inr (.inl ⟨rfl, by simp only [exec, execRdm, whenIdle_idle h]⟩)
  | wrt r m => exact .inr (.inr ⟨r, m, rfl, by simp only [exec, execWrt, whenIdle_idle h]⟩)
  | _ => cases hi

/-- Everything a command's meaning can do. -/
theorem exec_next {i : Instr} {s t : State} (h : exec i s = .next t) :
    s.phase = .idle ∧
    ((i.op.isTransaction = false ∧ ∃ p, t = respond i.op .ok p s) ∨
     (i = .rdt ∧ t = sendRequest .waitRdt rdtRequest s) ∨
     (i = .rdm ∧ t = sendRequest .waitRdm rdmRequest s) ∨
     (∃ r m, i = .wrt r m ∧
       t = sendRequest .waitWrt (wrtRequest (packBuffer r m)) (s.withBuf (packBuffer r m)))) := by
  by_cases hp : s.phase = .idle
  · refine ⟨hp, ?_⟩
    cases hi : i.op.isTransaction
    · obtain ⟨p, e⟩ := exec_codec hi hp
      rw [e] at h; cases h; exact .inl ⟨rfl, p, rfl⟩
    · rcases exec_transaction hi hp with ⟨rfl, e⟩ | ⟨rfl, e⟩ | ⟨r, m, rfl, e⟩ <;> rw [e] at h <;> cases h
      · exact .inr (.inl ⟨rfl, rfl⟩)
      · exact .inr (.inr (.inl ⟨rfl, rfl⟩))
      · exact .inr (.inr (.inr ⟨r, m, rfl, rfl⟩))
  · rw [exec_busy hp] at h; cases h

/-- The operation that waits in a phase. -/
def waitingOp : Phase → Option Op
  | .idle => none
  | .waitRdt => some .rdt
  | .waitRdm => some .rdm
  | .waitWrt => some .wrt

/-- A failure completes in every waiting phase by the one exception (R110). -/
theorem complete_fail {s : State} {op : Op} (h : waitingOp s.phase = some op) (e : BusErr) :
    complete (.fail e) s = .next (raiseTransportFailure op e s) := by
  unfold complete
  cases hp : s.phase <;> rw [hp] at h <;> cases h <;> rfl

theorem completeRdt_next {r : BusResp} {s t : State} (h : completeRdt r s = .next t) :
    ∃ st p, t = endTransaction (respond .rdt st p s) ∧
      ((∃ e, r = .fail e ∧ st = .fail e) ∨ (∃ d, r = .ok d ∧ st = .ok)) := by
  unfold completeRdt at h
  split at h
  · cases h; exact ⟨_, _, rfl, .inl ⟨_, rfl, rfl⟩⟩
  · split at h
    · cases h; exact ⟨_, _, rfl, .inr ⟨_, rfl, rfl⟩⟩
    · cases h

theorem completeRdm_next {r : BusResp} {s t : State} (h : completeRdm r s = .next t) :
    ∃ st p, t = endTransaction (respond .rdm st p s) ∧
      ((∃ e, r = .fail e ∧ st = .fail e) ∨ (∃ d, r = .ok d ∧ st = .ok)) := by
  unfold completeRdm at h
  split at h
  · cases h; exact ⟨_, _, rfl, .inl ⟨_, rfl, rfl⟩⟩
  · cases h; exact ⟨_, _, rfl, .inr ⟨_, rfl, rfl⟩⟩
  · cases h

theorem completeWrt_next {r : BusResp} {s t : State} (h : completeWrt r s = .next t) :
    ∃ st p, t = endTransaction (respond .wrt st p s) ∧
      ((∃ e, r = .fail e ∧ st = .fail e) ∨ (∃ d, r = .ok d ∧ st = .ok)) := by
  unfold completeWrt at h
  split at h
  · cases h; exact ⟨_, _, rfl, .inl ⟨_, rfl, rfl⟩⟩
  · cases h; exact ⟨_, _, rfl, .inr ⟨_, rfl, rfl⟩⟩

/-- Everything the complete step can do: one response, then IDLE with nothing outstanding (R105). -/
theorem complete_next {r : BusResp} {s t : State} (h : complete r s = .next t) :
    ∃ op st p, waitingOp s.phase = some op ∧ t = endTransaction (respond op st p s) ∧
      ((∃ e, r = .fail e ∧ st = .fail e) ∨ (∃ d, r = .ok d ∧ st = .ok)) := by
  unfold complete at h
  cases hp : s.phase <;> rw [hp] at h
  · cases h
  · obtain ⟨st, p, ht, hr⟩ := completeRdt_next h; exact ⟨_, st, p, rfl, ht, hr⟩
  · obtain ⟨st, p, ht, hr⟩ := completeRdm_next h; exact ⟨_, st, p, rfl, ht, hr⟩
  · obtain ⟨st, p, ht, hr⟩ := completeWrt_next h; exact ⟨_, st, p, rfl, ht, hr⟩

/-- Everything the transport can do: it answers, and of the rest of the state only the registers (by a write, or by the
peripheral's own steps in a torn transfer) and the count of free values (by a failed write) may change. -/
theorem serve_next {q : BusReq} {a : Answer} {s t : State} (h : serve q a s = .next t) :
    describedAccess q = true ∧ ∃ r, t.bus = .answered r ∧ t.phase = s.phase ∧ t.buf = s.buf ∧
      t.responses = s.responses ∧ t.inputs = s.inputs ∧
      (q.kind = .read → (∀ ms, a ≠ .torn ms) → t.periph = s.periph) ∧
      ((∃ e, a = .fail e ∧ r = .fail e) ∨
       (a = .ok ∧ q.kind = .read ∧ r = .ok (bulkRead s.periph q.reg.toNat q.len)) ∨
       (∃ ms, a = .torn ms ∧ q.kind = .read ∧ r = .ok (tornRead s.periph ms q.reg.toNat q.len) ∧
         t.periph = lastMoment s.periph ms) ∨
       (a = .ok ∧ q.kind = .write ∧ r = .ok [] ∧ t.periph = bulkWrite s.periph q.reg.toNat q.data) ∨
       (∃ ms, a = .torn ms ∧ q.kind = .write ∧ r = .ok [] ∧
         t.periph = bulkWrite (lastMoment s.periph ms) q.reg.toNat q.data)) := by
  unfold serve at h
  split at h
  · rename_i hd
    refine ⟨hd, ?_⟩
    cases hk : q.kind <;> cases a <;> rw [hk] at h <;> cases h
    · exact ⟨_, rfl, rfl, rfl, rfl, rfl, fun _ _ => rfl, .inr (.inl ⟨rfl, rfl, rfl⟩)⟩
    · exact ⟨_, rfl, rfl, rfl, rfl, rfl, fun _ h => absurd rfl (h _), .inr (.inr (.inl ⟨_, rfl, rfl, rfl, rfl⟩))⟩
    · exact ⟨_, rfl, rfl, rfl, rfl, rfl, fun _ _ => rfl, .inl ⟨_, rfl, rfl⟩⟩
    · exact ⟨_, rfl, rfl, rfl, rfl, rfl, by simp, .inr (.inr (.inr (.inl ⟨rfl, rfl, rfl, rfl⟩)))⟩
    · exact ⟨_, rfl, rfl, rfl, rfl, rfl, by simp, .inr (.inr (.inr (.inr ⟨_, rfl, rfl, rfl, rfl⟩)))⟩
    · exact ⟨_, rfl, rfl, rfl, rfl, rfl, by simp, .inl ⟨_, rfl, rfl⟩⟩
  · cases h

/-- A described request is served. -/
theorem serve_of_described {q : BusReq} (h : describedAccess q = true) (a : Answer) (s : State) :
    ∃ t, serve q a s = .next t := by
  unfold serve
  rw [if_pos h]
  cases q.kind <;> cases a <;> exact ⟨_, rfl⟩

@[simp] theorem describedAccess_rdt : describedAccess rdtRequest = true := rfl
@[simp] theorem describedAccess_rdm : describedAccess rdmRequest = true := rfl
@[simp] theorem describedAccess_wrt (b : Block) : describedAccess (wrtRequest b) = true := rfl

/-- What the transport reads for `RDT`: the eight registers. -/
theorem serve_rdt_ok (s : State) :
    serve rdtRequest .ok s = .next (s.withBus (.answered (.ok (blockToList s.periph)))) := rfl

/-- What the transport reads for `RDM`: the hours register. -/
theorem serve_rdm_ok (s : State) :
    serve rdmRequest .ok s = .next (s.withBus (.answered (.ok [s.periph.hours]))) := rfl

/-- What the transport reads for `RDT` in a torn transfer: each register at its own moment. -/
theorem serve_rdt_torn (ms : List Regs) (s : State) :
    serve rdtRequest (.torn ms) s = .next ((s.withPeriph (lastMoment s.periph ms)).withBus (.answered (.ok (blockToList
      ⟨(momentAt s.periph ms 0).seconds, (momentAt s.periph ms 1).minutes, (momentAt s.periph ms 2).hours,
       (momentAt s.periph ms 3).day, (momentAt s.periph ms 4).date, (momentAt s.periph ms 5).month,
       (momentAt s.periph ms 6).year, (momentAt s.periph ms 7).control⟩)))) := by
  rw [← tornRead_all]
  rfl

/-- What the transport reads for `RDM` in a torn transfer: the hours register at the byte's moment. -/
theorem serve_rdm_torn (ms : List Regs) (s : State) :
    serve rdmRequest (.torn ms) s =
      .next ((s.withPeriph (lastMoment s.periph ms)).withBus (.answered (.ok [(momentAt s.periph ms 0).hours]))) := by
  rw [← tornRead_hours]
  rfl

/-- What the transport writes for `WRT`: the packed buffer. -/
theorem serve_wrt_ok (b : Block) (s : State) :
    serve (wrtRequest b) .ok s = .next ((s.withPeriph b).withBus (.answered (.ok []))) := by
  have : serve (wrtRequest b) .ok s =
      .next ((s.withPeriph (bulkWrite s.periph 0 (blockToList b))).withBus (.answered (.ok []))) := rfl
  rw [this, bulkWrite_all]

/-- A torn write, too, ends with the packed buffer stored (R56(c)). -/
theorem serve_wrt_torn (b : Block) (ms : List Regs) (s : State) :
    serve (wrtRequest b) (.torn ms) s = .next ((s.withPeriph b).withBus (.answered (.ok []))) := by
  have : serve (wrtRequest b) (.torn ms) s =
      .next ((s.withPeriph (bulkWrite (lastMoment s.periph ms) 0 (blockToList b))).withBus (.answered (.ok []))) := rfl
  rw [this, bulkWrite_all]

/-- The one way an idle core starts a command: it decodes, and its meaning runs with the command taken off the inputs. -/
theorem step_command {s : State} {c : Command} {i : Instr} {rest : List Input} (hp : s.phase = .idle)
    (hin : s.inputs = .command c :: rest) (hd : decode c = .ok i) : step s = exec i (s.withInputs rest) := by
  simp [step, nextMove, hin, hp, acceptCommand, hd]

/-- A waiting core with its answer completes, unless a reset or a step of the peripheral comes first. -/
theorem step_answered {s : State} {r : BusResp} (hp : s.phase ≠ .idle) (hb : s.bus = .answered r)
    (hu : undisturbed s = true) : step s = complete r (s.withInputs (afterPass s.inputs)) := by
  obtain ⟨ph, bf, pr, bs, rs, is, n⟩ := s
  change bs = _ at hb
  subst hb
  unfold undisturbed at hu
  match is, hu with
  | [], _ => rfl
  | .command c :: rest, _ => simp only [step, nextMove, if_neg hp]; rfl
  | .answer a :: rest, _ => rfl
  | .pass :: rest, _ => rfl

/-- The transport answers as the next input says. -/
theorem step_serving_answer {s : State} {q : BusReq} {a : Answer} {rest : List Input} (hb : s.bus = .serving q)
    (hin : s.inputs = .answer a :: rest) : step s = serve q a (s.withInputs rest) := by
  simp [step, nextMove, answerMove, hin, hb]

/-- The transport answers freely where the next input says nothing of it. -/
theorem step_serving_silent {s : State} {q : BusReq} (hp : s.phase ≠ .idle) (hb : s.bus = .serving q)
    (hs : silent s = true) : step s = serveFreely q s := by
  unfold silent silentInputs at hs
  split at hs
  · rename_i hin; simp [step, nextMove, ownMove, hin, hb]
  · rename_i hin; simp [step, nextMove, ownMove, hin, hb, hp]
  · cases hs

/-- The moves of the whole system, by which agent makes them (R7). -/
inductive Move (s t : State) : Prop where
  /-- the core waits for a command -/
  | wait (hb : s.bus = .quiet) (hs : silent s = true) (ht : t = s)
  /-- a `pass` with nothing for the core to complete -/
  | pass (rest : List Input) (hin : s.inputs = .pass :: rest) (ht : t = s.withInputs rest)
  /-- the peripheral changes its registers -/
  | peripheral (p : Regs) (rest : List Input) (hin : s.inputs = .periphStep p :: rest)
      (ht : t = (s.withInputs rest).withPeriph p)
  /-- the core is reset -/
  | reset (rest : List Input) (hin : s.inputs = .reset :: rest) (ht : t = coreReset (s.withInputs rest))
  /-- the core accepts a command -/
  | accept (c : Command) (i : Instr) (rest : List Input) (hp : s.phase = .idle) (hin : s.inputs = .command c :: rest)
      (hd : decode c = .ok i) (ht : exec i (s.withInputs rest) = .next t)
  /-- the transport answers as the run says -/
  | answer (q : BusReq) (a : Answer) (rest : List Input) (hb : s.bus = .serving q) (hin : s.inputs = .answer a :: rest)
      (ht : serve q a (s.withInputs rest) = .next t)
  /-- the transport answers freely -/
  | free (q : BusReq) (hb : s.bus = .serving q) (hs : silent s = true) (ht : serveFreely q s = .next t)
  /-- the core completes -/
  | complete (r : BusResp) (hb : s.bus = .answered r) (hu : undisturbed s = true)
      (ht : Machine.complete r (s.withInputs (afterPass s.inputs)) = .next t)

/-- The core's own move, or the transport's, where the inputs are silent. -/
theorem ownMove_next {s t : State} (hs : silent s = true) (h : ownMove s = .next t) : Move s t := by
  obtain ⟨ph, bf, pr, bs, rs, is, n⟩ := s
  have hu : undisturbed ⟨ph, bf, pr, bs, rs, is, n⟩ = true ∧ afterPass is = is := by
    match is, hs with
    | [], _ => exact ⟨rfl, rfl⟩
    | .command _ :: _, _ => exact ⟨rfl, rfl⟩
  match bs, h with
  | .quiet, h => cases h; exact .wait rfl hs rfl
  | .serving q, h => exact .free q rfl hs h
  | .answered r, h =>
    refine .complete r rfl hu.1 ?_
    change complete r (State.withInputs _ (afterPass is)) = _
    rw [hu.2]; exact h

/-- Everything one step can do. -/
theorem step_next {s t : State} (h : step s = .next t) : Move s t := by
  obtain ⟨ph, bf, pr, bs, rs, is, n⟩ := s
  match is, h with
  | [], h => exact ownMove_next rfl h
  | .command c :: rest, h =>
    simp only [step, nextMove] at h
    split at h
    · rename_i hp
      simp only [acceptCommand] at h
      split at h
      · rename_i i hd; exact .accept c i rest hp rfl hd h
      · cases h
    · exact ownMove_next rfl h
  | .answer a :: rest, h =>
    match bs, h with
    | .quiet, h => cases h
    | .serving q, h => exact .answer q a rest rfl rfl h
    | .answered r, h => exact .complete r rfl rfl h
  | .periphStep p :: rest, h => cases h; exact .peripheral p rest rfl rfl
  | .reset :: rest, h => cases h; exact .reset rest rfl rfl
  | .pass :: rest, h =>
    match bs, h with
    | .quiet, h => cases h; exact .pass rest rfl rfl
    | .serving q, h => cases h; exact .pass rest rfl rfl
    | .answered r, h => exact .complete r rfl rfl h

end Sys2Proof.Machine
end

