-- ==== Sys2Proof/Laws/Coherence.lean ====
section
/-! SUPPORT. What a coherent state can be, agent by agent, and that the transport and the complete step go through in one. -/

namespace Sys2Proof

open Sys2Proof.Machine

/-- A coherent core is idle exactly when nothing is outstanding. -/
theorem coherent_quiet_iff {s : State} (hc : coherent s = true) : s.bus = .quiet ↔ s.phase = .idle := by
  unfold coherent at hc
  cases hp : s.phase <;> cases hb : s.bus <;> rw [hp, hb] at hc <;> simp_all

/-- The request outstanding in a coherent state is the phase's own. -/
theorem coherent_serving {s : State} {q : BusReq} (hc : coherent s = true) (hb : s.bus = .serving q) :
    (s.phase = .waitRdt ∧ q = rdtRequest) ∨ (s.phase = .waitRdm ∧ q = rdmRequest) ∨
    (s.phase = .waitWrt ∧ q = wrtRequest s.buf) := by
  unfold coherent at hc
  rw [hb] at hc
  cases hp : s.phase <;> rw [hp] at hc <;> simp_all

/-- The answer in a coherent state is a failure, or has the length the phase asked for. -/
theorem coherent_answered {s : State} {r : BusResp} (hc : coherent s = true) (hb : s.bus = .answered r) :
    (s.phase = .waitRdt ∧ ((∃ e, r = .fail e) ∨ ∃ d, r = .ok d ∧ d.length = 8)) ∨
    (s.phase = .waitRdm ∧ ((∃ e, r = .fail e) ∨ ∃ d, r = .ok d ∧ d.length = 1)) ∨
    (s.phase = .waitWrt ∧ ((∃ e, r = .fail e) ∨ ∃ d, r = .ok d ∧ d = [])) := by
  unfold coherent at hc
  rw [hb] at hc
  cases hp : s.phase <;> rw [hp] at hc <;> cases r <;> simp_all

/-- A request outstanding in a coherent state is one the transport serves. -/
theorem described_of_coherent {s : State} {q : BusReq} (hc : coherent s = true) (hb : s.bus = .serving q) :
    describedAccess q = true := by
  rcases coherent_serving hc hb with ⟨_, rfl⟩ | ⟨_, rfl⟩ | ⟨_, rfl⟩ <;> simp

/-- In a coherent state the complete step goes through, whatever inputs are left. -/
theorem complete_of_coherent {s : State} {r : BusResp} (hc : coherent s = true) (hb : s.bus = .answered r)
    (is : List Input) : ∃ t, complete r (s.withInputs is) = .next t := by
  rcases coherent_answered hc hb with ⟨hp, h⟩ | ⟨hp, h⟩ | ⟨hp, h⟩ <;> rcases h with ⟨e, rfl⟩ | ⟨d, rfl, hd⟩
  · exact ⟨_, complete_fail (op := .rdt) (by simp [waitingOp, hp]) e⟩
  · obtain ⟨b, rfl, hb⟩ := exists_block_of_length hd
    simp only [complete, State.withInputs_phase, hp, completeRdt, hb]
    exact ⟨_, rfl⟩
  · exact ⟨_, complete_fail (op := .rdm) (by simp [waitingOp, hp]) e⟩
  · obtain ⟨b, rfl⟩ := List.length_eq_one_iff.1 hd
    simp only [complete, State.withInputs_phase, hp, completeRdm]
    exact ⟨_, rfl⟩
  · exact ⟨_, complete_fail (op := .wrt) (by simp [waitingOp, hp]) e⟩
  · simp only [complete, State.withInputs_phase, hp, completeWrt]
    exact ⟨_, rfl⟩

/-- Serving a coherent state's request, possibly after the registers or the inputs changed, leaves it coherent. -/
theorem coherent_of_serve {s u t : State} {q : BusReq} {a : Answer} (hc : coherent s = true) (hb : s.bus = .serving q)
    (hu : u.phase = s.phase) (ht : serve q a u = .next t) : coherent t = true := by
  obtain ⟨_, r, h1, h2, _, _, _, _, h⟩ := serve_next ht
  rw [hu] at h2
  unfold coherent
  rw [h1, h2]
  rcases coherent_serving hc hb with ⟨hp, rfl⟩ | ⟨hp, rfl⟩ | ⟨hp, rfl⟩ <;> rw [hp] <;>
    rcases h with ⟨e, _, rfl⟩ | ⟨_, hk, rfl⟩ | ⟨ms, _, hk, rfl, _⟩ | ⟨_, hk, rfl, _⟩ | ⟨ms, _, hk, rfl, _⟩ <;>
    first | rfl | cases hk

end Sys2Proof
end

