-- ==== Sys2Proof/Laws/PerInstr.lean ====
section
/-! SUPPORT. Facts about every command as syntax, one lemma per constructor. -/

namespace Sys2Proof.Laws.EncodedFields

/-- R68, R70: the encoding carries the command's operation code and zero reserved bits. -/
def Statement (i : Instr) : Prop :=
  opField (encode i).cw = i.op.code ∧ rsvField (encode i).cw = 0b00#2

theorem dsec (b : Byte) : Statement (.dsec b) := ⟨opField_commandWord .., rsvField_commandWord ..⟩
theorem dgen (b : Byte) : Statement (.dgen b) := ⟨opField_commandWord .., rsvField_commandWord ..⟩
theorem dhrs (b : Byte) : Statement (.dhrs b) := ⟨opField_commandWord .., rsvField_commandWord ..⟩
theorem dmer (b : Byte) : Statement (.dmer b) := ⟨opField_commandWord .., rsvField_commandWord ..⟩
theorem edp (v : Dec) : Statement (.edp v) := ⟨opField_commandWord .., rsvField_commandWord ..⟩
theorem ehrs (h : Dec) (m : Mer) : Statement (.ehrs h m) := ⟨opField_commandWord .., rsvField_commandWord ..⟩
theorem rdt : Statement .rdt := ⟨opField_commandWord .., rsvField_commandWord ..⟩
theorem rdm : Statement .rdm := ⟨opField_commandWord .., rsvField_commandWord ..⟩
theorem wrt (r : Rec) (m : Mer) : Statement (.wrt r m) := ⟨opField_commandWord .., rsvField_commandWord ..⟩

end Sys2Proof.Laws.EncodedFields
end

