-- ==== Sys2Proof/Laws/Run.lean ====
section
/-! SUPPORT. Runs of several steps, and whole transactions with the answer the run names. -/

namespace Sys2Proof

open Sys2Proof.Machine

@[simp] theorem runSteps_zero (s : State) : runSteps 0 s = .next s := rfl

theorem runSteps_succ {k : Nat} {s t : State} (h : step s = .next t) : runSteps (k + 1) s = runSteps k t := by
  have : Sys2Proof.core.step s = .next t := h
  simp only [runSteps, Host.Core.run, this]
  rfl

theorem runSteps_add (a b : Nat) {s t : State} (h : runSteps a s = .next t) : runSteps (a + b) s = runSteps b t := by
  induction a generalizing s with
  | zero => cases h; rw [Nat.zero_add]
  | succ a ih =>
    rw [Nat.add_right_comm]
    cases hs : step s with
    | next u => rw [runSteps_succ hs] at h ⊢; exact ih h
    | fault r => cases r
    | refused r =>
      have : Sys2Proof.core.step s = .refused r := hs
      simp only [runSteps, Host.Core.run, this] at h
      cases h

theorem undisturbed_of_silent {s : State} (h : silentInputs s.inputs = true) : undisturbed s = true := by
  unfold undisturbed
  unfold silentInputs at h
  split at h <;> simp_all

theorem afterPass_of_silent {is : List Input} (h : silentInputs is = true) : afterPass is = is := by
  unfold silentInputs at h
  split at h
  · rfl
  · rfl
  · cases h

/-- A waiting core that has its answer completes, and silent inputs stay as they are. -/
theorem step_complete_silent {s : State} {r : BusResp} (hp : s.phase ≠ .idle) (hb : s.bus = .answered r)
    (hs : silentInputs s.inputs = true) : step s = complete r s := by
  rw [step_answered hp hb (undisturbed_of_silent hs), afterPass_of_silent hs]
  rfl

/-- The transaction of a waiting core, answered as the run says: the transport's step and the complete step. -/
theorem runSteps_transaction {s t u : State} {q : BusReq} {a : Answer} {r : BusResp} {rest : List Input}
    (hp : s.phase ≠ .idle) (hb : s.bus = .serving q) (hin : s.inputs = .answer a :: rest)
    (hs : silentInputs rest = true) (ht : serve q a (s.withInputs rest) = .next t) (hr : t.bus = .answered r)
    (hu : complete r t = .next u) : runSteps 2 s = .next u := by
  obtain ⟨_, r', _, hph, _, _, hti, _⟩ := serve_next ht
  rw [runSteps_succ ((step_serving_answer hb hin).trans ht),
    runSteps_succ ((step_complete_silent (by rw [hph]; exact hp) hr (by rw [hti]; exact hs)).trans hu), runSteps_zero]

end Sys2Proof
end

