-- ==== Sys2Proof/Tests/Slice0.lean ====
section
/-! SUPPORT. The model's own tests. Expected values are the spec's: the vectors and programs of 95_test_vectors.md, and the
words of 30_encoding.md R70, R74. Then, for each statement with hypotheses, states and operands that meet them. -/

namespace Sys2Proof.Tests

open Sys2Proof Sys2Proof.Machine

/-! ### States to test on -/

/-- R101's example: the registers of 11:45:30 PM. -/
def regs : Regs := ⟨0x30#8, 0x45#8, 0x71#8, 0x03#8, 0x15#8, 0x06#8, 0x24#8, 0x10#8⟩
/-- The record they decode to. -/
def record : Rec := ⟨30#8, 45#8, 11#8, 3#8, 15#8, 6#8, 24#8, 16#8⟩

def stateOf (ph : Phase) (b : BusState) (is : List Input) : State := ⟨ph, zeroBlock, regs, b, [], is, 0⟩
def idle (is : List Input) : State := stateOf .idle .quiet is

/-- What the last response shows. -/
def lastVal : Outcome → Option Byte
  | .next t => t.responses.getLast?.map (·.val)
  | _ => none
def lastMer : Outcome → Option Mer
  | .next t => t.responses.getLast?.map (·.m)
  | _ => none
def lastRec : Outcome → Option Rec
  | .next t => t.responses.getLast?.bind (·.rrec)
  | _ => none
def lastStatus : Outcome → Option Status
  | .next t => t.responses.getLast?.map (·.status)
  | _ => none
def busAfter : Outcome → Option BusState
  | .next t => some t.bus
  | _ => none
def phaseAfter : Outcome → Option Phase
  | .next t => some t.phase
  | _ => none
def periphAfter : Outcome → Option Regs
  | .next t => some t.periph
  | _ => none
def dataSent : Outcome → Option (List Byte)
  | .next t => match t.bus with | .serving q => some q.data | _ => none
  | _ => none
def refusedWith : Outcome → Option Refusal
  | .refused r => some r
  | _ => none

/-! ### Decoding: words written out from R68 and R70, bit by bit -/

theorem test_decode_dsec : decode ⟨0b0001000011011001#16, record⟩ = .ok (.dsec 0xD9#8) := by decide
theorem test_decode_dgen : decode ⟨0b0010000010011001#16, record⟩ = .ok (.dgen 0x99#8) := by decide
theorem test_decode_dhrs : decode ⟨0b0011000001110010#16, record⟩ = .ok (.dhrs 0x72#8) := by decide
theorem test_decode_dmer : decode ⟨0b0100000001100000#16, record⟩ = .ok (.dmer 0x60#8) := by decide
theorem test_decode_edp : decode ⟨0b0101000001000001#16, record⟩ = .ok (.edp 65#8) := by decide
theorem test_decode_ehrs : decode ⟨0b0110000100001100#16, record⟩ = .ok (.ehrs 12#8 .pm) := by decide
theorem test_decode_rdt : decode ⟨0b1000000000000000#16, record⟩ = .ok .rdt := by decide
theorem test_decode_rdm : decode ⟨0b1001000000000000#16, record⟩ = .ok .rdm := by decide
theorem test_decode_wrt : decode ⟨0b1010001000000000#16, record⟩ = .ok (.wrt record .h24) := by decide
theorem test_encode_wrt : encode (.wrt record .pm) = ⟨0xA100#16, record⟩ := by decide
theorem test_commandOfBits_record :
    commandOfBits 80 0x1006180F03000B2D1EA100 = ⟨0xA100#16, ⟨0x1E#8, 0x2D#8, 0x0B#8, 0x00#8, 0x03#8, 0x0F#8, 0x18#8, 0x06#8⟩⟩ := by
  decide

/-! Each check of the opcode map and of the assembler lines refuses an ill-formed term (R71's words). -/

theorem smoke_op_zero : Command.wellFormed ⟨0x0000#16, record⟩ = false := by decide
theorem smoke_op_seven : Command.wellFormed ⟨0x7012#16, record⟩ = false := by decide
theorem smoke_op_b : Command.wellFormed ⟨0xB000#16, record⟩ = false := by decide
theorem smoke_reserved_bits : Command.wellFormed ⟨0x1459#16, record⟩ = false := by decide
theorem smoke_mer_in_b : Command.wellFormed ⟨0x2159#16, record⟩ = false := by decide
theorem smoke_byte_in_n : Command.wellFormed ⟨0x8001#16, record⟩ = false := by decide
theorem smoke_mer_in_n : Command.wellFormed ⟨0x9100#16, record⟩ = false := by decide
theorem smoke_byte_in_w : Command.wellFormed ⟨0xA001#16, record⟩ = false := by decide
theorem smoke_mer_eleven_w : Command.wellFormed ⟨0xA300#16, record⟩ = false := by decide
theorem smoke_mer_eleven_h : Command.wellFormed ⟨0x630C#16, record⟩ = false := by decide
theorem smoke_well_formed : Command.wellFormed ⟨0x620C#16, record⟩ = true := by decide
theorem smoke_line_byte : AsmLine.wellFormed ⟨.dsec, [.num 256]⟩ = false := by decide
theorem smoke_line_count : AsmLine.wellFormed ⟨.ehrs, [.num 12]⟩ = false := by decide
theorem smoke_line_kind : AsmLine.wellFormed ⟨.edp, [.mer .am]⟩ = false := by decide
theorem smoke_line_record_length : AsmLine.wellFormed ⟨.wrt, [.record [1, 2, 3], .mer .am]⟩ = false := by decide
theorem smoke_line_record_byte : AsmLine.wellFormed ⟨.wrt, [.record [1, 2, 3, 4, 5, 6, 7, 300], .mer .am]⟩ = false := by decide
theorem smoke_line_extra : AsmLine.wellFormed ⟨.rdt, [.num 0]⟩ = false := by decide
theorem test_reject_names :
    decode ⟨0x7012#16, record⟩ = .error (.reservedOp 7#4) ∧ decode ⟨0x1459#16, record⟩ = .error .reservedBits ∧
    decode ⟨0x2159#16, record⟩ = .error .meridianNotZero ∧ decode ⟨0x8001#16, record⟩ = .error .byteNotZero ∧
    decode ⟨0x630C#16, record⟩ = .error .reservedMeridian := by decide

/-! ### One step of each command (95_test_vectors.md Part 2) -/

theorem test_dsec_flag_dropped : lastVal (exec (.dsec 0xC5#8) (idle [])) = some 45#8 := by decide
theorem test_dsec_maximum : lastVal (exec (.dsec 0xFF#8) (idle [])) = some 85#8 := by decide
theorem test_dgen_year : lastVal (exec (.dgen 0xD9#8) (idle [])) = some 139#8 := by decide
theorem test_dgen_maximum : lastVal (exec (.dgen 0xFF#8) (idle [])) = some 165#8 := by decide
theorem test_dhrs_twelve : lastVal (exec (.dhrs 0x72#8) (idle [])) = some 12#8 := by decide
theorem test_dhrs_masked : lastVal (exec (.dhrs 0xBF#8) (idle [])) = some 45#8 := by decide
theorem test_dmer_bit5_is_tens : lastMer (exec (.dmer 0x20#8) (idle [])) = some .h24 := by decide
theorem test_dmer_am_bit7 : lastMer (exec (.dmer 0xC9#8) (idle [])) = some .am := by decide
theorem test_edp_65 : lastVal (exec (.edp 65#8) (idle [])) = some 0x65#8 := by decide
theorem test_edp_truncated : lastVal (exec (.edp 255#8) (idle [])) = some 0x95#8 := by decide
theorem test_ehrs_bit5_forced : lastVal (exec (.ehrs 23#8 .pm) (idle [])) = some 0x63#8 := by decide
theorem test_ehrs_am_bit7 : lastVal (exec (.ehrs 80#8 .am) (idle [])) = some 0xC0#8 := by decide
theorem test_rdt_issue : busAfter (exec .rdt (idle [])) = some (.serving rdtRequest) := rfl
theorem test_rdt_complete :
    lastRec (step (stateOf .waitRdt (.answered (.ok [0x27#8, 0x93#8, 0x65#8, 0x85#8, 0x31#8, 0x92#8, 0x99#8, 0xB3#8])) []))
      = some ⟨27#8, 93#8, 5#8, 85#8, 31#8, 92#8, 99#8, 179#8⟩ := by decide
theorem test_rdm_issue : phaseAfter (exec .rdm (idle [])) = some .waitRdm := by decide
theorem test_rdm_complete : lastMer (step (stateOf .waitRdm (.answered (.ok [0x52#8])) [])) = some .am := by decide
theorem test_wrt_out_of_contract :
    dataSent (exec (.wrt ⟨85#8, 61#8, 45#8, 9#8, 40#8, 13#8, 120#8, 0xFF#8⟩ .h24) (idle [])) =
      some [0x85#8, 0x61#8, 0x45#8, 0x09#8, 0x40#8, 0x13#8, 0xC0#8, 0xFF#8] := by decide
theorem test_wrt_midnight :
    dataSent (exec (.wrt ⟨0#8, 0#8, 12#8, 1#8, 1#8, 1#8, 0#8, 0x93#8⟩ .am) (idle [])) =
      some [0x00#8, 0x00#8, 0x52#8, 0x01#8, 0x01#8, 0x01#8, 0x00#8, 0x93#8] := by decide

/-! ### The transport, failures, and what is refused -/

theorem test_transport_reads_hours :
    busAfter (step (stateOf .waitRdm (.serving rdmRequest) [.answer .ok])) = some (.answered (.ok [0x71#8])) := by decide
theorem test_transport_stores :
    periphAfter (step (stateOf .waitWrt (.serving (wrtRequest record)) [.answer .ok])) = some record := by decide
/-- R49, R56(b): a torn read takes the hours from the moment after the peripheral's first step, the control byte from its
last; `RDM`'s byte is of the first moment. -/
theorem test_torn_read :
    tornRead regs [regs, regs, record] 0 8 = [0x30#8, 0x45#8, 11#8, 3#8, 15#8, 6#8, 24#8, 16#8] := by decide
theorem test_torn_rdm :
    busAfter (step (stateOf .waitRdm (.serving rdmRequest) [.answer (.torn [record, regs])])) =
      some (.answered (.ok [11#8])) ∧
    periphAfter (step (stateOf .waitRdm (.serving rdmRequest) [.answer (.torn [record, regs])])) = some regs := by decide
theorem test_failure_reported :
    lastStatus (step (stateOf .waitRdt (.answered (.fail .nack)) [])) = some (.fail .nack) := by decide
theorem test_failure_idle :
    phaseAfter (step (stateOf .waitWrt (.answered (.fail (.other 3))) [])) = some .idle := by decide
theorem test_busy : refusedWith (exec (.dsec 0#8) (stateOf .waitRdt (.serving rdtRequest) [])) = some .busy := by decide
theorem test_reserved_word_refused :
    refusedWith (step (idle [.command ⟨0xA301#16, record⟩])) = some (.reservedWord .byteNotZero) := by decide
theorem test_unsolicited : refusedWith (step (idle [.answer .ok])) = some .unsolicitedAnswer := by decide
theorem test_first_step_after_reset : lastVal (step (State.reset.withFetchWord 16 0x10D9)) = some 59#8 := by decide
theorem test_first_step_rdt : phaseAfter (step (State.reset.withFetchWord 16 0x8000)) = some .waitRdt := by decide
theorem test_response_word : Response.word ⟨.rdm, .fail .nack, .pm, 0xAB#8, none⟩ = 0x99AB#16 := by decide
theorem test_source_names : [Op.dsec, .ehrs, .wrt].map Op.sourceName = ["decode_seconds", "encode_hours", "write_time"] := by decide

/-! ### Witnesses: the hypotheses of each statement can be met -/

theorem witness_idle_phase : (idle []).phase = .idle := by decide
theorem witness_completes_rdt_ok :
    let s := stateOf .waitRdt (.answered (.ok (blockToList regs))) [.pass]
    s.phase = .waitRdt ∧ s.bus = .answered (.ok (blockToList regs)) ∧ undisturbed s = true := by decide
theorem witness_completes_rdt_fail :
    let s := stateOf .waitRdt (.answered (.fail .timeout)) []
    s.phase = .waitRdt ∧ s.bus = .answered (.fail .timeout) ∧ undisturbed s = true := by decide
theorem witness_completes_rdm_ok :
    let s := stateOf .waitRdm (.answered (.ok [0x71#8])) []
    s.phase = .waitRdm ∧ s.bus = .answered (.ok [0x71#8]) ∧ undisturbed s = true := by decide
theorem witness_completes_rdm_fail :
    let s := stateOf .waitRdm (.answered (.fail .nack)) [.answer .ok]
    s.phase = .waitRdm ∧ s.bus = .answered (.fail .nack) ∧ undisturbed s = true := by decide
theorem witness_stores_wrt :
    let s := stateOf .waitWrt (.serving ⟨.write, 0b1101000#7, 0x00#8, 1, 8, Config.tWriteMs,
      [0x30#8, 0x45#8, 0x71#8, 0x03#8, 0x15#8, 0x06#8, 0x24#8, 0x10#8]⟩) [.answer .ok]
    s.inputs = .answer .ok :: [] ∧ s.bus = .serving (wrtRequest regs) := ⟨rfl, rfl⟩
theorem witness_completes_wrt_ok :
    let s := stateOf .waitWrt (.answered (.ok [])) []
    s.phase = .waitWrt ∧ s.bus = .answered (.ok []) ∧ undisturbed s = true := by decide
theorem witness_completes_wrt_fail :
    let s := stateOf .waitWrt (.answered (.fail .arbLost)) [.command ⟨0x8000#16, record⟩]
    s.phase = .waitWrt ∧ s.bus = .answered (.fail .arbLost) ∧ undisturbed s = true := by decide
theorem witness_WrtStoresThePackedRecord :
    let s := idle [.command (encode (.wrt record .pm)), .answer .ok]
    s.phase = .idle ∧ s.bus = .quiet ∧ s.inputs = .command (encode (.wrt record .pm)) :: .answer .ok :: [] := by decide
theorem witness_WrittenTimeReadsBack_legal :
    let s := idle (faultFreeRun [.wrt record .pm, .rdt, .rdm] ++ [])
    legalRecord record .pm = true ∧ silentInputs [] = true ∧ s.phase = .idle ∧ s.bus = .quiet ∧
      s.inputs = faultFreeRun [.wrt record .pm, .rdt, .rdm] ++ [] := by decide
theorem witness_WrittenTimeReadsBack_bounds :
    legalRecord ⟨59#8, 59#8, 23#8, 7#8, 31#8, 12#8, 99#8, 0#8⟩ .h24 = true ∧
    legalRecord ⟨0#8, 0#8, 1#8, 1#8, 1#8, 1#8, 0#8, 255#8⟩ .am = true ∧
    legalRecord ⟨0#8, 0#8, 12#8, 1#8, 1#8, 1#8, 0#8, 255#8⟩ .pm = true ∧
    exactRecord ⟨79#8, 159#8, 39#8, 159#8, 159#8, 159#8, 159#8, 255#8⟩ .h24 = true ∧
    exactRecord ⟨79#8, 159#8, 19#8, 159#8, 159#8, 159#8, 159#8, 255#8⟩ .am = true ∧
    exactRecord ⟨80#8, 0#8, 0#8, 0#8, 0#8, 0#8, 0#8, 0#8⟩ .h24 = false := by decide
theorem witness_WriteIsVisibleToTheNextRead :
    let s := idle (faultFreeRun [.wrt regs .h24, .rdt] ++ [])
    silentInputs [] = true ∧ s.phase = .idle ∧ s.bus = .quiet ∧
      s.inputs = faultFreeRun [.wrt regs .h24, .rdt] ++ [] := by decide
theorem witness_PeripheralStepChangesOnlyTheRegisters :
    (idle [.periphStep record]).inputs = .periphStep record :: [] := by decide
theorem witness_TransportReadsAndStoresAscending :
    (describedAccess ⟨.read, 0b1101000#7, 7#8, 1, 1, 0, []⟩ = true) ∧
    (describedAccess ⟨.write, 0b1101000#7, 3#8, 1, 2, 0, [1#8, 2#8]⟩ = true) ∧
    (describedAccess ⟨.read, 0b1101000#7, 7#8, 1, 2, 0, []⟩ = false) := by decide
theorem witness_SilentTransportAnswers :
    let s := stateOf .waitRdt (.serving rdtRequest) []
    coherent s = true ∧ s.bus = .serving rdtRequest ∧ silent s = true := ⟨decide_eq_true rfl, rfl, rfl⟩
theorem witness_NamedAnswerIsServed_wrt :
    let s := stateOf .waitWrt (.serving (wrtRequest zeroBlock)) [.answer (.fail .nack)]
    coherent s = true ∧ s.bus = .serving (wrtRequest zeroBlock) ∧ s.inputs = .answer (.fail .nack) :: [] :=
  ⟨decide_eq_true rfl, rfl, rfl⟩
theorem witness_NamedAnswerIsServed_reads :
    coherent (stateOf .waitRdt (.serving rdtRequest) [.answer .ok]) = true ∧
    coherent (stateOf .waitRdm (.serving rdmRequest) [.answer .ok]) = true := ⟨decide_eq_true rfl, decide_eq_true rfl⟩
theorem witness_NamedAnswerIsServed_torn :
    coherent (stateOf .waitRdt (.serving rdtRequest) [.answer (.torn [record])]) = true ∧
    coherent (stateOf .waitRdm (.serving rdmRequest) [.answer (.torn [record])]) = true ∧
    coherent (stateOf .waitWrt (.serving (wrtRequest zeroBlock)) [.answer (.torn [record])]) = true :=
  ⟨decide_eq_true rfl, decide_eq_true rfl, decide_eq_true rfl⟩
theorem witness_BulkReadNeedNotBeASnapshot :
    let s := idle [.command (encode .rdt), .answer (.torn [regs, record])]
    silentInputs [] = true ∧ s.phase = .idle ∧ s.bus = .quiet ∧
      s.inputs = .command (encode .rdt) :: .answer (.torn [regs, record]) :: [] := by decide
theorem witness_decodes : decode ⟨0x610C#16, record⟩ = .ok (.ehrs 12#8 .pm) := by decide
theorem witness_DecoderFollowsTheOpcodeMap :
    let row : OpRow := ⟨.dsec, .b, 0x1#4, 0x1000#16, 0xFF00#16, false⟩
    row ∈ opcodeMap ∧ row.selects 0x10D9#16 = true ∧ decode ⟨0x10D9#16, record⟩ = .ok (.dsec 0xD9#8) := by decide
theorem witness_ReservedWordsAreRefused :
    let s := idle [.command ⟨0x630C#16, record⟩]
    s.phase = .idle ∧ s.inputs = .command ⟨0x630C#16, record⟩ :: [] ∧ reservedByRule 0x630C#16 = true := by decide
theorem witness_reserved_each_clause :
    reservedByRule 0x0000#16 = true ∧ reservedByRule 0x7012#16 = true ∧ reservedByRule 0xB000#16 = true ∧
    reservedByRule 0xF0FF#16 = true ∧ reservedByRule 0x1459#16 = true ∧ reservedByRule 0x2159#16 = true ∧
    reservedByRule 0x8001#16 = true ∧ reservedByRule 0xA001#16 = true ∧ reservedByRule 0xA300#16 = true ∧
    reservedByRule 0xA200#16 = false ∧ reservedByRule 0x62FF#16 = false := by decide
theorem witness_StepRunsTheDecodedCommand :
    let s := idle [.command ⟨0x9000#16, record⟩]
    s.phase = .idle ∧ s.inputs = .command ⟨0x9000#16, record⟩ :: [] ∧ decode ⟨0x9000#16, record⟩ = .ok .rdm ∧
      decodeTableWord 16 0x9000 = some .rdm := by decide
theorem witness_CommandsWaitWhileTheCoreWaits :
    let s := stateOf .waitRdm (.answered (.ok [0#8])) [.command ⟨0x9000#16, record⟩]
    coherent s = true ∧ s.phase ≠ .idle ∧ s.inputs = .command ⟨0x9000#16, record⟩ :: [] := by decide
theorem witness_EveryStepKeepsCoherence :
    ∃ t, coherent (idle [.command ⟨0xA100#16, record⟩]) = true ∧
      step (idle [.command ⟨0xA100#16, record⟩]) = .next t := ⟨_, rfl, rfl⟩
theorem witness_OnlyListedRequestsAreSent :
    ∃ t, coherent (idle [.command ⟨0x8000#16, record⟩]) = true ∧
      step (idle [.command ⟨0x8000#16, record⟩]) = .next t ∧ t.bus = .serving rdtRequest := ⟨_, rfl, rfl, rfl⟩
theorem witness_AtMostOneResponsePerStep_completes :
    ∃ t, step (stateOf .waitRdm (.answered (.ok [0#8])) []) = .next t ∧ t.phase = .idle ∧
      (stateOf .waitRdm (.answered (.ok [0#8])) []).phase ≠ .idle ∧
      ∀ rest, (stateOf .waitRdm (.answered (.ok [0#8])) []).inputs ≠ .reset :: rest :=
  ⟨_, rfl, rfl, by decide, by intro r h; cases h⟩
theorem witness_AtMostOneResponsePerStep_waits :
    ∃ t, step (stateOf .waitRdm (.serving rdmRequest) [.answer .ok]) = .next t ∧ t.phase ≠ .idle := ⟨_, rfl, by decide⟩
theorem witness_AtMostOneResponsePerStep_accepts :
    (∃ t, step (idle [.command ⟨0x10D9#16, record⟩]) = .next t ∧ decode ⟨0x10D9#16, record⟩ = .ok (.dsec 0xD9#8)) ∧
    (∃ t, step (idle [.command ⟨0x8000#16, record⟩]) = .next t ∧ decode ⟨0x8000#16, record⟩ = .ok .rdt) :=
  ⟨⟨_, rfl, rfl⟩, ⟨_, rfl, rfl⟩⟩
theorem witness_AtMostOneResponsePerStep_accepts_none :
    (∃ t, step (idle [.periphStep record]) = .next t) ∧ ∀ c rest, (idle [.periphStep record]).inputs ≠ .command c :: rest :=
  ⟨⟨_, rfl⟩, by intro c r h; cases h⟩
theorem witness_FailuresAreTheTransportsOwn :
    ∃ t r, coherent (stateOf .waitRdm (.answered (.fail .nack)) []) = true ∧
      step (stateOf .waitRdm (.answered (.fail .nack)) []) = .next t ∧
      t.responses = (stateOf .waitRdm (.answered (.fail .nack)) []).responses ++ [r] ∧ r.status = .fail .nack :=
  ⟨_, _, rfl, rfl, rfl, rfl⟩
theorem witness_FailedReadLeavesNoTrace :
    let s := idle (.command (encode .rdm) :: .answer (.fail .timeout) :: (faultFreeRun [.rdt] ++ []))
    silentInputs [] = true ∧ s.phase = .idle ∧ s.bus = .quiet ∧
      s.inputs = .command (encode .rdm) :: .answer (.fail .timeout) :: (faultFreeRun [.rdt] ++ []) := by decide
theorem witness_RecordDependsOnTheRegistersOnly :
    let s := idle (faultFreeRun [.rdt] ++ [])
    let s' : State := ⟨.idle, record, regs, .quiet, [], faultFreeRun [.rdt] ++ [.command ⟨0x9000#16, record⟩], 5⟩
    silentInputs [.command ⟨0x9000#16, record⟩] = true ∧ s.phase = .idle ∧ s.bus = .quiet ∧ s'.phase = .idle ∧
      s'.bus = .quiet ∧ s.periph = s'.periph ∧ s ≠ s' := by decide
theorem witness_OnlyWrtChangesTheRegisters :
    ∃ t, coherent (idle [.periphStep record]) = true ∧ step (idle [.periphStep record]) = .next t ∧
      t.periph ≠ (idle [.periphStep record]).periph := ⟨_, rfl, rfl, by decide⟩
theorem witness_CoherentMachineNeverStops :
    coherent (idle [.command ⟨0x1000#16, record⟩]) = true ∧ followable (idle [.command ⟨0x1000#16, record⟩]) = true ∧
    followable (idle [.answer .ok]) = false := by decide
theorem witness_WaitingEndsInTwoSteps :
    let s := stateOf .waitWrt (.serving (wrtRequest zeroBlock)) []
    coherent s = true ∧ s.phase ≠ .idle ∧ s.inputs = [] := ⟨decide_eq_true rfl, by decide, rfl⟩
theorem witness_EveryRunOfCommandsEnds :
    let s := idle (commandRun [.wrt record .pm, .dsec 0#8, .rdt])
    s.phase = .idle ∧ s.bus = .quiet ∧ s.inputs = commandRun [.wrt record .pm, .dsec 0#8, .rdt] := by decide
theorem witness_EveryRunOfCommandsEnds_open :
    let s := idle [.periphStep record, .command ⟨0x8000#16, record⟩, .pass, .command ⟨0x10D9#16, record⟩, .periphStep regs]
    s.phase = .idle ∧ s.bus = .quiet ∧ openInputs s.inputs = true ∧ commandOps s.inputs = [.rdt, .dsec] ∧
      runLength s.inputs = 9 := by decide
theorem witness_ResetAtAnyMoment :
    (stateOf .waitRdt (.serving rdtRequest) [.reset]).inputs = .reset :: [] ∧
    (stateOf .waitRdt (.serving rdtRequest) [.reset]).phase ≠ .waitWrt := ⟨rfl, by decide⟩
theorem witness_IdleCoreWaits :
    runOver (idle []) = true ∧ runOver (idle [.periphStep record, .pass]) = true ∧
    runOver (idle [.pass, .command ⟨0x8000#16, record⟩]) = false ∧
    runOver (stateOf .waitRdt (.serving rdtRequest) []) = false := by decide
theorem witness_IdleCoreWaits_step :
    ∃ t, step (idle [.periphStep record, .pass]) = .next t ∧ ∀ rest, (idle [.periphStep record, .pass]).inputs ≠ .reset :: rest :=
  ⟨_, rfl, by intro r h; cases h⟩
theorem witness_ModeIsLostWithoutTheMeridian :
    (Mer.pm ≠ .h24 ∧ legalHour record.hours .pm = true ∧ regs.hours = (packBuffer record .pm).hours) ∧
    (legalHour (23#8) .h24 = true ∧ (0x23#8) = (packBuffer { record with hours := 23#8 } .h24).hours) := by decide
theorem witness_WrtAlwaysWritesTheOscillatorFlag :
    record.seconds.toNat < 80 ∧ (80 ≤ (159#8).toNat ∧ (159#8).toNat ≤ 159) ∧ secondsValue 0x79#8 < 80 := by decide
theorem witness_DgenDecodesTheGenericByte :
    (159#8).toNat ≤ 159 ∧ 0xF9#8 = digitPair 159#8 ∧ (0x59#8).getLsbD 7 = false := by decide
theorem witness_CodecRoundTripLaws :
    (159#8).toNat ≤ 159 ∧ (79#8).toNat ≤ 79 ∧ (39#8).toNat ≤ 39 ∧ (19#8).toNat ≤ 19 ∧ Mer.am ≠ .h24 ∧
    legalRecord record .pm = true := by decide
/-- R133, each row at both ends of its range. -/
theorem witness_OutOfRange_digit_pairs :
    (60 ≤ (60#8).toNat ∧ (79#8).toNat ≤ 79) ∧ (80 ≤ (80#8).toNat ∧ (159#8).toNat ≤ 159) ∧
    (100 ≤ (100#8).toNat ∧ (159#8).toNat ≤ 159) ∧ (160 ≤ (160#8).toNat ∧ 160 ≤ (255#8).toNat) ∧
    ((0#8).toNat = 0 ∧ 8 ≤ (8#8).toNat ∧ 32 ≤ (32#8).toNat ∧ 13 ≤ (13#8).toNat) := by decide
theorem witness_OutOfRange_hours :
    (24 ≤ (24#8).toNat ∧ (39#8).toNat ≤ 39) ∧ (40 ≤ (40#8).toNat ∧ (79#8).toNat ≤ 79) ∧
    (13 ≤ (13#8).toNat ∧ (19#8).toNat ≤ 19) ∧ (20 ≤ (20#8).toNat ∧ (39#8).toNat ≤ 39) ∧ Mer.pm ≠ .h24 := by decide
/-- The bytes R133 prints for the ends of its rows. -/
theorem test_out_of_range_rows :
    dataSent (exec (.wrt ⟨80#8, 60#8, 40#8, 8#8, 32#8, 13#8, 100#8, 0xFF#8⟩ .h24) (idle [])) =
      some [0x80#8, 0x60#8, 0x40#8, 0x08#8, 0x32#8, 0x13#8, 0xA0#8, 0xFF#8] ∧
    dataSent (exec (.wrt ⟨159#8, 79#8, 24#8, 79#8, 79#8, 79#8, 159#8, 0#8⟩ .h24) (idle [])) =
      some [0xF9#8, 0x79#8, 0x24#8, 0x79#8, 0x79#8, 0x79#8, 0xF9#8, 0x00#8] := by decide
theorem witness_AssemblerLinesHaveTheirWords :
    255 < 256 ∧ assembledWord ⟨.ehrs, [.num 255, .mer .h24]⟩ = some 0x62FF#16 := by decide
theorem witness_EncodeOfDecodeIsTheWord :
    decode ⟨0xA100#16, record⟩ = .ok (.wrt record .pm) ∧ (Instr.wrt record .pm).op = .wrt := by decide
theorem witness_PhaseMovesByTheTable :
    ∃ t, step (stateOf .waitWrt (.serving (wrtRequest zeroBlock)) [.reset]) = .next t ∧ t.phase = .idle := ⟨_, rfl, rfl⟩
theorem witness_GenericBitSevenAddsEighty : (0x80#8).getLsbD 7 = true := by decide

end Sys2Proof.Tests
end

section
/-! SUPPORT. The scope's open numbers: R5's two timeouts. -/

namespace Sys2Proof

/-- Settles O46: R5's read timeout is the write timeout, an open excess and one more, so the excess may even be 0. -/
theorem writeTimeoutIsShorter : Obligations.WriteTimeoutIsShorter := by
  unfold Obligations.WriteTimeoutIsShorter Config.tReadMs
  exact Nat.lt_add_one_of_le (Nat.le_add_right Config.tWriteMs Config.tReadExtraMs)

end Sys2Proof
end

section
/-! SUPPORT. The state's own statements: what reset leaves, that packing forgets its scratch buffer, and who changes the
peripheral's registers. -/

namespace Sys2Proof

open Sys2Proof.Machine

/-- R44: only `WRT` sends a write, so the request outstanding is a read unless `WRT` waits. -/
theorem waitWrt_or_read_of_coherent {s : State} {q : BusReq} (hc : coherent s = true) (hb : s.bus = .serving q) :
    s.phase = .waitWrt ∨ q.kind = .read := by
  rcases coherent_serving hc hb with ⟨_, rfl⟩ | ⟨_, rfl⟩ | ⟨hp, _⟩
  · exact .inr rfl
  · exact .inr rfl
  · exact .inl hp

/-- R103: accepting a command, `WRT` included, leaves the registers; a write reaches them through the transport only. -/
theorem exec_periph {i : Instr} {s t : State} (h : exec i s = .next t) : t.periph = s.periph := by
  obtain ⟨_, ⟨_, p, rfl⟩ | ⟨_, rfl⟩ | ⟨_, rfl⟩ | ⟨r, m, _, rfl⟩⟩ := exec_next h <;> rfl

/-- R105: completing leaves the registers. -/
theorem complete_periph {r : BusResp} {s t : State} (h : complete r s = .next t) : t.periph = s.periph := by
  obtain ⟨op, st, p, _, rfl, _⟩ := complete_next h
  rfl

/-- R50, D16: a read leaves the registers, but for the peripheral's own steps where the transfer is torn. -/
theorem serve_read_periph {q : BusReq} {a : Answer} {s t : State} (hk : q.kind = .read) (h : serve q a s = .next t) :
    t.periph = s.periph ∨ ∃ ms, a = .torn ms ∧ t.periph = lastMoment s.periph ms := by
  obtain ⟨_, r, _, _, _, _, _, hkept, hcase⟩ := serve_next h
  cases a with
  | ok => exact .inl (hkept hk nofun)
  | fail e => exact .inl (hkept hk nofun)
  | torn ms =>
    rcases hcase with ⟨_, ha, _⟩ | ⟨ha, _⟩ | ⟨_, ha, _, _, ht⟩ | ⟨ha, _⟩ | ⟨_, _, hw, _⟩
    · cases ha
    · cases ha
    · cases ha; exact .inr ⟨ms, rfl, ht⟩
    · cases ha
    · rw [hk] at hw; cases hw

/-- Settles O34, by the agent that moves: the core's own moves leave the registers, and the transport's leave them when it
serves a read that is not torn. -/
theorem onlyWrtChangesTheRegisters : Obligations.OnlyWrtChangesTheRegisters := by
  intro s t hc hstep hne
  cases step_next hstep with
  | wait hb hs ht => exact absurd (by rw [ht]) hne
  | pass rest hin ht => exact absurd (by rw [ht, State.withInputs_periph]) hne
  | peripheral p rest hin ht => exact .inr (.inl ⟨p, rest, hin⟩)
  | reset rest hin ht =>
    by_cases hp : s.phase = .waitWrt
    · exact .inl hp
    · have hkept := coreReset_periph_of_ne (s := s.withInputs rest) hp
      exact absurd (by rw [ht, hkept, State.withInputs_periph]) hne
  | accept c i rest hp hin hd ht => exact absurd (exec_periph ht) hne
  | answer q a rest hb hin ht =>
    rcases waitWrt_or_read_of_coherent hc hb with hp | hk
    · exact .inl hp
    · rcases serve_read_periph hk ht with hkept | ⟨ms, rfl, hlast⟩
      · exact absurd hkept hne
      · exact .inr (.inr (.inl ⟨ms, rest, q, hin, hb, hlast⟩))
  | free q hb hs ht => exact .inr (.inr (.inr ⟨hs, q, hb⟩))
  | complete r hb hu ht => exact absurd (complete_periph ht) hne

/-- R100: a core that is idle with nothing outstanding is coherent. -/
theorem coherent_of_idle_quiet {s : State} (hp : s.phase = .idle) (hb : s.bus = .quiet) : coherent s = true := by
  simp only [coherent, hp, hb]

/-- Settles O28: the fields of the reset state, of which the phase and the bus make it coherent. -/
theorem resetIsIdleAndCoherent : Obligations.ResetIsIdleAndCoherent :=
  ⟨rfl, rfl, rfl, rfl, coherent_of_idle_quiet rfl rfl⟩

/-- Settles O41: packing writes all eight positions from the record, so no byte of the scratch buffer is left. -/
theorem scratchZeroingNeverShows : Obligations.ScratchZeroingNeverShows := by
  intro x r m
  rw [packBuffer, packInto_eq, packInto_eq]

end Sys2Proof
end

section
/-! SUPPORT. The transport and its requests: what serving a request does by kind and answer, that every step keeps the
phase and the bus channel coherent, and where an outstanding request comes from. -/

namespace Sys2Proof

open Sys2Proof.Machine

/-- `coherent` reads the phase, the buffer and the bus channel only. -/
theorem coherent_congr {s t : State} (hp : t.phase = s.phase) (hb : t.bus = s.bus) (hf : t.buf = s.buf) :
    coherent t = coherent s := by
  unfold coherent
  rw [hp, hb, hf]

/-- R44, R100: a command's meaning leaves the core as it was, or waiting with its own row's request. -/
theorem exec_keeps_coherent {i : Instr} {s t : State} (hc : coherent s = true) (h : exec i s = .next t) :
    coherent t = true := by
  obtain ⟨_, ⟨_, p, rfl⟩ | ⟨_, rfl⟩ | ⟨_, rfl⟩ | ⟨r, m, _, rfl⟩⟩ := exec_next h
  · rwa [coherent_congr (respond_phase ..) (respond_bus ..) (respond_buf ..)]
  · exact decide_eq_true rfl
  · exact decide_eq_true rfl
  · exact decide_eq_true rfl

/-- R105: the complete step leaves the core idle and the bus quiet. -/
theorem complete_idle_quiet {r : BusResp} {s t : State} (h : complete r s = .next t) :
    t.phase = .idle ∧ t.bus = .quiet := by
  obtain ⟨op, st, p, _, rfl, _⟩ := complete_next h
  exact ⟨rfl, rfl⟩

/-- Settles O27, by the agent that moves: the core's moves lead to IDLE or to a row of R44, the transport answers the
request of the phase, and the other moves touch neither phase, bus nor buffer. -/
theorem everyStepKeepsCoherence : Obligations.EveryStepKeepsCoherence := by
  intro s t hc hstep
  cases step_next hstep with
  | wait hb hs ht => rwa [ht]
  | pass rest hin ht => rw [ht]; exact hc
  | peripheral p rest hin ht => rw [ht]; exact hc
  | reset rest hin ht => rw [ht]; exact coherent_of_idle_quiet rfl rfl
  | accept c i rest hp hin hd ht => exact exec_keeps_coherent (s := s.withInputs rest) hc ht
  | answer q a rest hb hin ht => exact coherent_of_serve (u := s.withInputs rest) hc hb rfl ht
  | free q hb hs ht =>
    exact coherent_of_serve (u := (s.withPeriph (Config.driftedPeriph s.draws)).drawn) hc hb rfl ht
  | complete r hb hu ht =>
    obtain ⟨hp, hq⟩ := complete_idle_quiet ht
    exact coherent_of_idle_quiet hp hq

/-- A coherent core with a request outstanding waits. -/
theorem waits_of_coherent_serving {s : State} {q : BusReq} (hc : coherent s = true) (hb : s.bus = .serving q) :
    s.phase ≠ .idle := by
  intro hp
  rw [(coherent_quiet_iff hc).2 hp] at hb
  cases hb

/-- R56(a): after the transport has moved, no request is outstanding. -/
theorem not_serving_of_serve {q q' : BusReq} {a : Answer} {s t : State} (h : serve q a s = .next t) :
    t.bus ≠ .serving q' := by
  obtain ⟨_, r, hr, _⟩ := serve_next h
  rw [hr]
  exact nofun

/-- R44: a command's meaning that leaves a request outstanding is that of a transaction command, in its row's phase. -/
theorem exec_serving {i : Instr} {s t : State} {q : BusReq} (h : exec i s = .next t) (hs : s.bus = .quiet)
    (hq : t.bus = .serving q) :
    (i = .rdt ∧ t.phase = .waitRdt) ∨ (i = .rdm ∧ t.phase = .waitRdm) ∨ (i.op = .wrt ∧ t.phase = .waitWrt) := by
  obtain ⟨_, ⟨_, p, rfl⟩ | ⟨hi, rfl⟩ | ⟨hi, rfl⟩ | ⟨r, m, rfl, rfl⟩⟩ := exec_next h
  · rw [respond_bus, hs] at hq; cases hq
  · exact .inl ⟨hi, rfl⟩
  · exact .inr (.inl ⟨hi, rfl⟩)
  · exact .inr (.inr ⟨rfl, rfl⟩)

/-- R44, R104, R105: a request outstanding after a step of a coherent machine stood there before it, in the same phase, or
the step accepted the command that sends it. -/
theorem serving_after_step {s t : State} {q : BusReq} (hc : coherent s = true) (h : step s = .next t)
    (hq : t.bus = .serving q) :
    (s.bus = .serving q ∧ t.phase = s.phase) ∨
    (s.phase = .idle ∧ ∃ c i rest, s.inputs = .command c :: rest ∧ decode c = .ok i ∧
      ((i = .rdt ∧ t.phase = .waitRdt) ∨ (i = .rdm ∧ t.phase = .waitRdm) ∨ (i.op = .wrt ∧ t.phase = .waitWrt))) := by
  cases step_next h with
  | wait hb hs ht => rw [ht] at hq ⊢; exact .inl ⟨hq, rfl⟩
  | pass rest hin ht => rw [ht] at hq ⊢; exact .inl ⟨hq, rfl⟩
  | peripheral p rest hin ht => rw [ht] at hq ⊢; exact .inl ⟨hq, rfl⟩
  | reset rest hin ht => rw [ht, coreReset_bus] at hq; cases hq
  | accept c i rest hp hin hd ht =>
    have hquiet : (s.withInputs rest).bus = .quiet := (coherent_quiet_iff hc).2 hp
    exact .inr ⟨hp, c, i, rest, hin, hd, exec_serving ht hquiet hq⟩
  | answer q' a rest hb hin ht => exact absurd hq (not_serving_of_serve ht)
  | free q' hb hs ht => exact absurd hq (not_serving_of_serve ht)
  | complete r hb hu ht => rw [(complete_idle_quiet ht).2] at hq; cases hq

/-- Settles O29: the state after the step is coherent, so its request is its phase's row of R44; where the request comes
from is `serving_after_step`. -/
theorem onlyListedRequestsAreSent : Obligations.OnlyListedRequestsAreSent := by
  intro s t q hc hstep hq
  have hrow := coherent_serving (everyStepKeepsCoherence s t hc hstep) hq
  refine ⟨hrow, fun hwait => ?_, fun hidle => ?_⟩
  · rcases serving_after_step hc hstep hq with hkept | ⟨hidle, _⟩
    · exact hkept
    · exact absurd hidle hwait
  · rcases serving_after_step hc hstep hq with ⟨hb, _⟩ | ⟨_, hsent⟩
    · exact absurd hidle (waits_of_coherent_serving hc hb)
    · exact hsent

/-- Settles O15: R44's requests are all described ones, so the transport's free answer goes through. -/
theorem silentTransportAnswers : Obligations.SilentTransportAnswers := by
  intro s q hc hb hs
  obtain ⟨t, ht⟩ := serve_of_described (described_of_coherent hc hb) (Config.freeAnswer s.draws)
    (s.withPeriph (Config.driftedPeriph s.draws)).drawn
  have hstep : step s = .next t := (step_serving_silent (waits_of_coherent_serving hc hb) hb hs).trans ht
  obtain ⟨_, r, hr, hp, hf, hresp, hin, _⟩ := serve_next ht
  exact ⟨t, r, hstep, hr, hp, hf, hresp, hin⟩

/-- Settles O13: an input of the peripheral is used up by the machine's move whatever the other agents wait for. -/
theorem peripheralStepChangesOnlyTheRegisters : Obligations.PeripheralStepChangesOnlyTheRegisters := by
  intro s p rest hin
  have hmove : nextMove s = .next ((s.withInputs rest).withPeriph p) := by simp only [nextMove, hin]
  exact hmove

/-! ### Serving a described request, by kind and answer -/

/-- R40, R42, R43, R51: a described request ends within register 0x07, and a write brings as many bytes as its length. -/
theorem described_bounds {q : BusReq} (h : describedAccess q = true) :
    q.reg.toNat + q.len ≤ 8 ∧ (q.kind = .write → q.data.length = q.len) := by
  simp only [describedAccess, Bool.and_eq_true, Bool.or_eq_true, decide_eq_true_eq, beq_iff_eq] at h
  obtain ⟨⟨_, hlen⟩, hdata⟩ := h
  refine ⟨hlen, fun hw => hdata.resolve_left ?_⟩
  rw [hw]
  exact nofun

section Serve

variable {q : BusReq} (hd : describedAccess q = true) (s : State)
include hd

theorem serve_read_ok (hk : q.kind = .read) :
    serve q .ok s = .next (s.withBus (.answered (.ok (bulkRead s.periph q.reg.toNat q.len)))) := by
  simp only [serve, hd, hk, if_true]

theorem serve_read_torn (hk : q.kind = .read) (ms : List Regs) :
    serve q (.torn ms) s = .next ((s.withPeriph (lastMoment s.periph ms)).withBus
      (.answered (.ok (tornRead s.periph ms q.reg.toNat q.len)))) := by
  simp only [serve, hd, hk, if_true]

theorem serve_read_fail (hk : q.kind = .read) (e : BusErr) :
    serve q (.fail e) s = .next (s.withBus (.answered (.fail e))) := by
  simp only [serve, hd, hk, if_true]

theorem serve_write_ok (hk : q.kind = .write) :
    serve q .ok s =
      .next ((s.withPeriph (bulkWrite s.periph q.reg.toNat q.data)).withBus (.answered (.ok []))) := by
  simp only [serve, hd, hk, if_true]

theorem serve_write_torn (hk : q.kind = .write) (ms : List Regs) :
    serve q (.torn ms) s = .next ((s.withPeriph (bulkWrite (lastMoment s.periph ms) q.reg.toNat q.data)).withBus
      (.answered (.ok []))) := by
  simp only [serve, hd, hk, if_true]

theorem serve_write_fail (hk : q.kind = .write) (e : BusErr) :
    serve q (.fail e) s =
      .next ((s.withPeriph (Config.anyPeriph s.draws)).drawn.withBus (.answered (.fail e))) := by
  simp only [serve, hd, hk, if_true]

end Serve

/-- R43: what a described write has stored, and every other register as it was. -/
theorem readByte_bulkWrite_described {q : BusReq} (hd : describedAccess q = true) (hk : q.kind = .write) (p : Regs)
    (a : Nat) :
    readByte (bulkWrite p q.reg.toNat q.data) a =
      if q.reg.toNat ≤ a ∧ a < q.reg.toNat + q.len then q.data[a - q.reg.toNat]? else readByte p a := by
  obtain ⟨hlen, hdata⟩ := described_bounds hd
  rw [readByte_bulkWrite _ _ _ _ (by rw [hdata hk]; exact hlen), hdata hk]

/-- Settles O14: the six combinations of kind and answer, each with its equation of `serve` and the law of its transfer. -/
theorem transportReadsAndStoresAscending : Obligations.TransportReadsAndStoresAscending := by
  intro q s hd
  obtain ⟨hlen, _⟩ := described_bounds hd
  refine ⟨fun hk => ?_, fun hk ms => ?_, fun hk ms => ?_, fun hk e => ?_, fun hk => ?_, fun hk e => ?_⟩
  · have hbytes (i : Nat) (hi : i < q.len) := (bulkRead_getElem? s.periph q.reg.toNat q.len i).trans (if_pos hi)
    exact ⟨_, _, serve_read_ok hd s hk, rfl, bulkRead_length _ hlen, hbytes, rfl, rfl, rfl, rfl, rfl⟩
  · have hbytes (i : Nat) (hi : i < q.len) := tornRead_getElem? s.periph ms q.reg.toNat q.len i hlen hi
    exact ⟨_, _, serve_read_torn hd s hk ms, rfl, tornRead_length _ _ _ _ hlen, hbytes, rfl, rfl, rfl, rfl, rfl⟩
  · exact ⟨_, serve_write_torn hd s hk ms, rfl, readByte_bulkWrite_described hd hk _, rfl, rfl, rfl, rfl⟩
  · exact ⟨_, serve_read_fail hd s hk e, rfl, rfl, rfl, rfl, rfl, rfl⟩
  · exact ⟨_, serve_write_ok hd s hk, rfl, readByte_bulkWrite_described hd hk _, rfl, rfl, rfl, rfl⟩
  · exact ⟨_, serve_write_fail hd s hk e, rfl, rfl, rfl, rfl, rfl⟩

/-! ### A named answer -/

/-- R56(a): a failure reaches the core as the transport gave it. -/
theorem serve_fail_bus {q : BusReq} {e : BusErr} {s t : State} (h : serve q (.fail e) s = .next t) :
    t.bus = .answered (.fail e) := by
  obtain ⟨hd, _⟩ := serve_next h
  cases hk : q.kind with
  | read => rw [serve_read_fail hd s hk] at h; cases h; rfl
  | write => rw [serve_write_fail hd s hk] at h; cases h; rfl

section WaitingRequest

variable {s : State} {q : BusReq} (hc : coherent s = true) (hb : s.bus = .serving q)
include hc hb

theorem eq_rdtRequest_of_coherent (hp : s.phase = .waitRdt) : q = rdtRequest := by
  simpa [hp] using coherent_serving hc hb

theorem eq_rdmRequest_of_coherent (hp : s.phase = .waitRdm) : q = rdmRequest := by
  simpa [hp] using coherent_serving hc hb

theorem eq_wrtRequest_of_coherent (hp : s.phase = .waitWrt) : q = wrtRequest s.buf := by
  simpa [hp] using coherent_serving hc hb

end WaitingRequest

/-- Settles O47: the step is the transport's, the request is the phase's row of R44, and each row's answer is what `serve`
gives for that row. -/
theorem namedAnswerIsServed : Obligations.NamedAnswerIsServed := by
  refine ⟨fun s q a rest hb hin => step_serving_answer hb hin, fun s q a rest hc hb hin => ?_⟩
  obtain ⟨t, ht⟩ := serve_of_described (described_of_coherent hc hb) a (s.withInputs rest)
  obtain ⟨_, r, hr, hp, hf, hresp, hti, hkept, _⟩ := serve_next ht
  have hct : coherent t = true := coherent_of_serve (u := s.withInputs rest) hc hb rfl ht
  refine ⟨t, r, (step_serving_answer hb hin).trans ht, hr, hct, hp, hf, hresp, hti, ?_, ?_, ?_, ?_, ?_, ?_, ?_, ?_⟩
  · rintro e rfl
    rw [serve_fail_bus ht] at hr; cases hr; rfl
  · rintro rfl hph
    rw [eq_rdtRequest_of_coherent hc hb hph, serve_rdt_ok] at ht; cases ht; cases hr; rfl
  · rintro rfl hph
    rw [eq_rdmRequest_of_coherent hc hb hph, serve_rdm_ok] at ht; cases ht; cases hr; rfl
  · rintro rfl hph
    rw [eq_wrtRequest_of_coherent hc hb hph, serve_wrt_ok] at ht; cases ht; cases hr; exact ⟨rfl, rfl⟩
  · rintro ms rfl hph
    rw [eq_rdtRequest_of_coherent hc hb hph, serve_rdt_torn, ← tornRead_all] at ht; cases ht; cases hr
    have hbytes (i : Nat) (hi : i < 8) := tornRead_getElem? s.periph ms 0 8 i (Nat.le_refl 8) hi
    simp only [Nat.zero_add] at hbytes
    exact ⟨rfl, _, rfl, tornRead_length _ _ _ _ (Nat.le_refl 8), hbytes⟩
  · rintro ms rfl hph
    rw [eq_rdmRequest_of_coherent hc hb hph, serve_rdm_torn] at ht; cases ht; cases hr; exact ⟨rfl, rfl⟩
  · rintro ms rfl hph
    rw [eq_wrtRequest_of_coherent hc hb hph, serve_wrt_torn] at ht; cases ht; cases hr; exact ⟨rfl, rfl⟩
  · intro hph hnt
    rcases waitWrt_or_read_of_coherent hc hb with hw | hk
    · exact absurd hw hph
    · exact hkept hk hnt

end Sys2Proof
end

section
/-! SUPPORT. Whole transactions of an idle core as one equation each, and the statements about writing, failing and
reading torn bytes that follow from them. -/

namespace Sys2Proof

open Sys2Proof.Machine

/-- R68, R70: the word of a transaction command decodes to the command. -/
theorem decode_encode_transaction {i : Instr} (hi : i.op.isTransaction = true) : decode (encode i) = .ok i := by
  cases i with
  | rdt => rfl
  | rdm => rfl
  | wrt r m =>
    obtain ⟨hop, hrsv⟩ := Laws.EncodedFields.wrt r m
    rw [decode_of_op _ .wrt hop hrsv]
    have hmer : m.code = merField (encode (.wrt r m)).cw := (merField_commandWord ..).symm
    exact needByteZero_ok.2 ⟨byteField_commandWord .., decodeMer_ok.2 ⟨m, hmer, rfl⟩⟩
  | _ => cases hi

/-- R101: the issue step of `RDT`. -/
theorem exec_rdt_idle {s : State} (hp : s.phase = .idle) :
    exec .rdt s = .next (sendRequest .waitRdt rdtRequest s) := by
  simpa using exec_transaction (i := .rdt) rfl hp

/-- R102: the issue step of `RDM`. -/
theorem exec_rdm_idle {s : State} (hp : s.phase = .idle) :
    exec .rdm s = .next (sendRequest .waitRdm rdmRequest s) := by
  simpa using exec_transaction (i := .rdm) rfl hp

/-- R103: the issue step of `WRT`. -/
theorem exec_wrt_idle (r : Rec) (m : Mer) {s : State} (hp : s.phase = .idle) :
    exec (.wrt r m) s =
      .next (sendRequest .waitWrt (wrtRequest (packBuffer r m)) (s.withBuf (packBuffer r m))) := by
  simpa using exec_transaction (i := .wrt r m) rfl hp

/-- A run that begins with a transaction command goes on from the command's meaning. -/
theorem runSteps_accept {s v : State} {i : Instr} {is : List Input} {k : Nat} (hi : i.op.isTransaction = true)
    (hp : s.phase = .idle) (hin : s.inputs = .command (encode i) :: is) (hv : exec i (s.withInputs is) = .next v) :
    runSteps (k + 1) s = runSteps k v :=
  runSteps_succ ((step_command hp hin (decode_encode_transaction hi)).trans hv)

section Transaction

variable {s : State} {rest : List Input} (hs : silentInputs rest = true) (hp : s.phase = .idle)
include hs hp

/-- R101, R57: `RDT` with a fault-free transport answers what the registers decode to. -/
theorem runSteps_rdt_ok (hin : s.inputs = .command (encode .rdt) :: .answer .ok :: rest) :
    runSteps 3 s =
      .next (endTransaction (respond .rdt .ok { rrec := some (decodeBlock s.periph) } (s.withInputs rest))) := by
  have haccept := runSteps_accept rfl hp hin (exec_rdt_idle hp) (k := 2)
  exact haccept.trans (runSteps_transaction nofun rfl rfl hs (serve_rdt_ok _) rfl rfl)

/-- R101, R49: `RDT` with a torn transfer answers what the registers, each at its own moment, decode to. -/
theorem runSteps_rdt_torn {ms : List Regs} (hin : s.inputs = .command (encode .rdt) :: .answer (.torn ms) :: rest) :
    runSteps 3 s =
      .next (endTransaction (respond .rdt .ok { rrec := some (decodeBlock
        ⟨(momentAt s.periph ms 0).seconds, (momentAt s.periph ms 1).minutes, (momentAt s.periph ms 2).hours,
         (momentAt s.periph ms 3).day, (momentAt s.periph ms 4).date, (momentAt s.periph ms 5).month,
         (momentAt s.periph ms 6).year, (momentAt s.periph ms 7).control⟩) }
        ((s.withPeriph (lastMoment s.periph ms)).withInputs rest))) := by
  have haccept := runSteps_accept rfl hp hin (exec_rdt_idle hp) (k := 2)
  exact haccept.trans (runSteps_transaction nofun rfl rfl hs (serve_rdt_torn _ _) rfl rfl)

/-- R103, R57: `WRT` with a fault-free transport leaves the packed record in the buffer and in the registers. -/
theorem runSteps_wrt_ok {r : Rec} {m : Mer} (hin : s.inputs = .command (encode (.wrt r m)) :: .answer .ok :: rest) :
    runSteps 3 s =
      .next (endTransaction (respond .wrt .ok {}
        (((s.withBuf (packBuffer r m)).withPeriph (packBuffer r m)).withInputs rest))) := by
  have haccept := runSteps_accept rfl hp hin (exec_wrt_idle r m hp) (k := 2)
  exact haccept.trans (runSteps_transaction nofun rfl rfl hs (serve_wrt_ok _ _) rfl rfl)

/-- R110, R50, D16: a read that fails sends its response, and of the rest of the state only the inputs are used up. -/
theorem runSteps_read_fail {i : Instr} {e : BusErr} (hi : i = .rdt ∨ i = .rdm)
    (hin : s.inputs = .command (encode i) :: .answer (.fail e) :: rest) :
    runSteps 3 s = .next (raiseTransportFailure i.op e (s.withInputs rest)) := by
  rcases hi with rfl | rfl
  · have haccept := runSteps_accept rfl hp hin (exec_rdt_idle hp) (k := 2)
    exact haccept.trans (runSteps_transaction nofun rfl rfl hs (serve_read_fail rfl _ rfl e) rfl rfl)
  · have haccept := runSteps_accept rfl hp hin (exec_rdm_idle hp) (k := 2)
    exact haccept.trans (runSteps_transaction nofun rfl rfl hs (serve_read_fail rfl _ rfl e) rfl rfl)

end Transaction

/-- R91: the hours byte of every hour and meridian. -/
theorem encHrs_isHoursByte (h : Dec) (m : Mer) : isHoursByte h m (encHrs h m) := by
  refine ⟨?_, fun hm => ⟨?_, ?_, fun k hk h5 h6 => ?_⟩⟩
  · rintro rfl
    exact encDp_eq h
  · rw [encHrs_getLsbD h m 6 (by decide), if_pos ⟨hm, rfl⟩]
  · rw [encHrs_getLsbD h m 5 (by decide), if_neg (by simp), if_pos ⟨hm, rfl⟩]
  · rw [encHrs_getLsbD h m k hk, if_neg (fun hc => h6 hc.2), if_neg (fun hc => h5 hc.2)]

/-- R75, R103: the packed buffer is what the record and the meridian pack to. -/
theorem packBuffer_packsTo (r : Rec) (m : Mer) : packsTo r m (packBuffer r m) := by
  rw [packBuffer, packInto_eq]
  exact ⟨encDp_eq _, encDp_eq _, encHrs_isHoursByte _ _, encDp_eq _, encDp_eq _, encDp_eq _, encDp_eq _, rfl⟩

/-- Settles O12: `WRT` leaves the packed record in the registers, and `RDT` answers what they decode to. -/
theorem writeIsVisibleToTheNextRead : Obligations.WriteIsVisibleToTheNextRead := by
  intro r m s rest hs hp _ hin
  have hwrite := runSteps_wrt_ok (rest := faultFreeRun [.rdt] ++ rest) rfl hp hin
  have hread := (runSteps_add 3 3 hwrite).trans (runSteps_rdt_ok hs rfl rfl)
  exact ⟨_, _, _, decodeBlock (packBuffer r m), hread, List.append_assoc .., rfl, rfl, rfl, rfl, rfl,
    packBuffer_packsTo r m, decodeBlock_decodesTo _, rfl, rfl, rfl⟩

/-- Settles O32: the failed read's run ends in the state it began in but for its response, the inputs used up and the
count of free values, none of which a successful `RDT` answers from. -/
theorem failedReadLeavesNoTrace : Obligations.FailedReadLeavesNoTrace := by
  intro s i e rest hi hs hp hb hin
  have hfail := runSteps_read_fail (rest := faultFreeRun [.rdt] ++ rest) rfl hp hi hin
  have hread := (runSteps_add 3 3 hfail).trans (runSteps_rdt_ok hs rfl rfl)
  have halone := runSteps_rdt_ok (s := s.withInputs (faultFreeRun [.rdt] ++ rest)) hs hp rfl
  exact ⟨_, _, _, _, _, hread, halone, List.append_assoc .., rfl, rfl, rfl, rfl, rfl, rfl, rfl, rfl, rfl, rfl⟩

/-- 59 seconds, no minutes: the registers just before a minute is full. -/
def beforeTheTick : Regs := ⟨0x59#8, 0x00#8, 0x00#8, 0x01#8, 0x01#8, 0x01#8, 0x00#8, 0x00#8⟩

/-- One minute, no seconds: the registers one second later. -/
def afterTheTick : Regs := ⟨0x00#8, 0x01#8, 0x00#8, 0x01#8, 0x01#8, 0x01#8, 0x00#8, 0x00#8⟩

/-- An idle core before the tick whose coming `RDT` moves the seconds byte before it and the others after it. -/
def readAcrossTheTick : State :=
  { phase := .idle, buf := zeroBlock, periph := beforeTheTick, bus := .quiet, responses := [],
    inputs := [.command (encode .rdt), .answer (.torn [beforeTheTick, afterTheTick])], draws := 0 }

/-- R140: 59 seconds and one minute are in the registers neither before nor after the tick. -/
theorem not_decodesTo_across_the_tick {p : Regs} {rec : Rec} (hsec : rec.seconds.toNat = secondsValue 0x59#8)
    (hmin : rec.minutes.toNat = genericValue 0x01#8) (hp : p = beforeTheTick ∨ p = afterTheTick) :
    ¬ decodesTo p rec := by
  rintro ⟨hs, hm, _⟩
  rcases hp with rfl | rfl
  · exact absurd (hmin.symm.trans hm) (by decide)
  · exact absurd (hsec.symm.trans hs) (by decide)

/-- Settles O48: the torn `RDT` as one equation; across a tick of the clock its record is that of no moment. -/
theorem bulkReadNeedNotBeASnapshot : Obligations.BulkReadNeedNotBeASnapshot := by
  constructor
  · intro s ms rest hs hp _ hin
    exact ⟨_, _, _, runSteps_rdt_torn hs hp hin, rfl, rfl, rfl, rfl, rfl, rfl, rfl, rfl, decodeBlock_decodesTo _⟩
  · have hrun := runSteps_rdt_torn (s := readAcrossTheTick) (rest := []) rfl rfl rfl
    refine ⟨readAcrossTheTick, _, _, _, _, rfl, rfl, hrun, rfl, rfl, rfl, fun p hp => ?_⟩
    obtain ⟨hsec, hmin, _⟩ := decodeBlock_decodesTo ⟨0x59#8, 0x01#8, 0x00#8, 0x01#8, 0x01#8, 0x01#8, 0x00#8, 0x00#8⟩
    exact not_decodesTo_across_the_tick hsec hmin (by simpa [readAcrossTheTick] using hp)

end Sys2Proof
end

section
/-! SUPPORT. Decoder and encoder as inverses; which words are commands, said once by fields, and that the decoder, the opcode
map and the list of reserved words all agree with it; then the assembler's lines and the response word. -/

namespace Sys2Proof

open Sys2Proof.Machine

/-! ### Decoding and encoding -/

/-- R68, R70: the encoding of every command carries its operation code and zero reserved bits. -/
theorem encode_op_rsv : ∀ i : Instr, Laws.EncodedFields.Statement i
  | .dsec b => Laws.EncodedFields.dsec b
  | .dgen b => Laws.EncodedFields.dgen b
  | .dhrs b => Laws.EncodedFields.dhrs b
  | .dmer b => Laws.EncodedFields.dmer b
  | .edp v => Laws.EncodedFields.edp v
  | .ehrs h m => Laws.EncodedFields.ehrs h m
  | .rdt => Laws.EncodedFields.rdt
  | .rdm => Laws.EncodedFields.rdm
  | .wrt r m => Laws.EncodedFields.wrt r m

/-- R68, R70: the encoded word decodes to the command it came from; only `WRT` looks at the record beside it. -/
theorem decode_encode_word (i : Instr) (w : Rec) (hw : i.op = .wrt → (encode i).wrec = w) :
    decode ⟨(encode i).cw, w⟩ = .ok i := by
  obtain ⟨ho, hr⟩ := encode_op_rsv i
  have hd := decode_of_op ⟨(encode i).cw, w⟩ i.op ho hr
  cases i with
  | dsec b | dgen b | dhrs b | dmer b | edp b => exact hd.trans (decodeB_ok.2 (by simp [encode]))
  | ehrs h m => exact hd.trans (decodeMer_ok.2 ⟨m, by simp [encode]⟩)
  | rdt | rdm => exact hd.trans (decodeN_ok.2 (by simp [encode]))
  | wrt r m =>
    obtain rfl : r = w := hw rfl
    exact hd.trans (needByteZero_ok.2 ⟨by simp [encode], decodeMer_ok.2 ⟨m, by simp [encode]⟩⟩)

/-- R68, D29: a command that decodes is the encoding of what it decodes to, but for a record that only `WRT` looks at. -/
theorem encode_of_decode {c : Command} {i : Instr} (h : decode c = .ok i) :
    (encode i).cw = c.cw ∧ (i.op = .wrt → (encode i).wrec = c.wrec) := by
  obtain ⟨op, ho, hr⟩ := decode_ok_fields h
  have hword := commandWord_of_fields c.cw op ho hr
  rw [decode_of_op c op ho hr] at h
  cases op with
  | dsec | dgen | dhrs | dmer | edp =>
    obtain ⟨hm, rfl⟩ := decodeB_ok.1 h
    rw [hm] at hword
    exact ⟨hword, nofun⟩
  | ehrs =>
    obtain ⟨m, hm, rfl⟩ := decodeMer_ok.1 h
    rw [← hm] at hword
    exact ⟨hword, nofun⟩
  | rdt | rdm =>
    obtain ⟨ha, hm, rfl⟩ := decodeN_ok.1 h
    rw [ha, hm] at hword
    exact ⟨hword, nofun⟩
  | wrt =>
    obtain ⟨ha, hk⟩ := needByteZero_ok.1 h
    obtain ⟨m, hm, rfl⟩ := decodeMer_ok.1 hk
    rw [ha, ← hm] at hword
    exact ⟨hword, fun _ => rfl⟩

/-- Settles O16: every command is the decoding of its own word and record. -/
theorem decodeOfEncodeIsTheCommand : Obligations.DecodeOfEncodeIsTheCommand :=
  fun i => decode_encode_word i (encode i).wrec fun _ => rfl

/-- Settles O17: the fields of a decoded word, put together again, are the encoding of what it decoded to. -/
theorem encodeOfDecodeIsTheWord : Obligations.EncodeOfDecodeIsTheWord :=
  fun _ _ h => encode_of_decode h

/-! ### The words that are commands -/

/-- R65: the codes of the meridians are all but 11. -/
theorem Mer.exists_code_iff (c : BitVec 2) : (∃ m : Mer, m.code = c) ↔ c ≠ 0b11#2 := by
  constructor
  · rintro ⟨m, rfl⟩
    cases m <;> decide
  · intro hc
    obtain ⟨m, hm⟩ := Option.ne_none_iff_exists'.1 (mt (Mer.ofCode?_eq_none c).1 hc)
    exact ⟨m, Mer.code_of_ofCode? c m hm⟩

/-- R69: the operations with a meridian operand, those of formats H and W. -/
def Op.takesMer : Op → Bool
  | .ehrs | .wrt => true
  | .dsec | .dgen | .dhrs | .dmer | .edp | .rdt | .rdm => false

/-- R69, R71: what an operation asks of the fields `m` and `a`: a meridian's code where it takes a meridian, else 00; and
`a` zero where it takes no byte, which is so for the transactions. -/
def Op.admits (op : Op) (m : BitVec 2) (a : Byte) : Prop :=
  (if op.takesMer then m ≠ 0b11#2 else m = 0b00#2) ∧ (op.isTransaction = true → a = 0x00#8)

/-- R70, R71: the words that are commands, field by field. -/
def accepted (cw : Word16) : Prop :=
  ∃ op : Op, opField cw = op.code ∧ rsvField cw = 0b00#2 ∧ op.admits (merField cw) (byteField cw)

/-- R71: no operation admits the reserved meridian code. -/
theorem Op.mer_ne_eleven_of_admits {op : Op} {m : BitVec 2} {a : Byte} (h : op.admits m a) : m ≠ 0b11#2 := by
  obtain ⟨hm, _⟩ := h
  split at hm
  · exact hm
  · rw [hm]; decide

/-- R70: different operations have different codes. -/
theorem Op.code_injective {op op' : Op} (h : op.code = op'.code) : op = op' := by
  rw [← Option.some_inj, ← Op.ofCode?_code, h, Op.ofCode?_code]

/-- A word with a known operation and zero reserved bits decodes when its operand fields are the operation's. -/
theorem decode_ok_iff_admits (c : Command) (op : Op) (ho : opField c.cw = op.code) (hr : rsvField c.cw = 0b00#2) :
    (∃ i, decode c = .ok i) ↔ op.admits (merField c.cw) (byteField c.cw) := by
  rw [decode_of_op c op ho hr]
  cases op with
  | dsec | dgen | dhrs | dmer | edp => simp [decodeB_ok, Op.admits, Op.takesMer, Op.isTransaction]
  | ehrs => simp [decodeMer_ok, Op.admits, Op.takesMer, Op.isTransaction, ← Mer.exists_code_iff]
  | rdt | rdm => simp [decodeN_ok, Op.admits, Op.takesMer, Op.isTransaction, and_comm]
  | wrt =>
    simp [needByteZero_ok, decodeMer_ok, Op.admits, Op.takesMer, Op.isTransaction, ← Mer.exists_code_iff, and_comm]

/-- R68 to R71: the decoder accepts the words that are commands. -/
theorem decode_ok_iff_accepted (c : Command) : (∃ i, decode c = .ok i) ↔ accepted c.cw := by
  constructor
  · intro h
    obtain ⟨op, ho, hr⟩ := decode_ok_fields h.choose_spec
    exact ⟨op, ho, hr, (decode_ok_iff_admits c op ho hr).1 h⟩
  · rintro ⟨op, ho, hr, ha⟩
    exact (decode_ok_iff_admits c op ho hr).2 ha

/-! ### The opcode map -/

/-- R70: the rows' masks and patterns, field by field: a row looks at the operation code and the reserved bits, at the
meridian bits where it has no constraint on them, and at the byte where the operation takes none. -/
theorem opcodeMap_fields : ∀ row ∈ opcodeMap,
    row.pattern = commandWord row.op 0b00#2 0x00#8 ∧ row.merOperand = row.op.takesMer ∧
    opField row.mask = BitVec.allOnes 4 ∧ rsvField row.mask = BitVec.allOnes 2 ∧
    merField row.mask = (if !row.op.takesMer then BitVec.allOnes 2 else 0#2) ∧
    byteField row.mask = (if row.op.isTransaction then BitVec.allOnes 8 else 0#8) := by
  decide

/-- R70: every operation has a row. -/
theorem exists_row (op : Op) : ∃ row ∈ opcodeMap, row.op = op := by
  cases op <;> decide

/-- R70: an operation has one row only. -/
theorem row_eq_of_op : ∀ row ∈ opcodeMap, ∀ row' ∈ opcodeMap, row.op = row'.op → row = row' := by
  decide

/-- The two meridian bits under the mask of R70's constraint. -/
theorem and_mer_mask_eq_iff (cw : Word16) : cw &&& 0x0300#16 = 0x0300#16 ↔ merField cw = 0b11#2 := by
  have hmask : opField 0x0300#16 = 0#4 ∧ rsvField 0x0300#16 = 0#2 ∧ merField 0x0300#16 = 0b11#2 ∧
      byteField 0x0300#16 = 0#8 := by decide
  obtain ⟨ho, hr, hm, hb⟩ := hmask
  have hones : merField cw &&& 0b11#2 = merField cw := BitVec.and_allOnes
  simp [word_eq_iff, ho, hr, hm, hb, hones]

/-- Under a mask of all bits or none, zero is seen exactly when the bits are zero or none is looked at. -/
theorem and_optional_mask_eq_zero {n : Nat} (x : BitVec n) (look : Bool) :
    x &&& (if look then BitVec.allOnes n else 0#n) = 0#n ↔ (look = true → x = 0#n) := by
  cases look with
  | true => rw [if_pos rfl, BitVec.and_allOnes, imp_iff_right rfl]
  | false => exact iff_of_true BitVec.and_zero nofun

/-- R70: a word matches a row under its mask when it has the row's operation, and zeros in what else the row looks at. -/
theorem matches_iff {row : OpRow} (hrow : row ∈ opcodeMap) (cw : Word16) :
    cw &&& row.mask = row.pattern ↔
      opField cw = row.op.code ∧ rsvField cw = 0b00#2 ∧ (row.op.takesMer = false → merField cw = 0b00#2) ∧
        (row.op.isTransaction = true → byteField cw = 0x00#8) := by
  obtain ⟨hp, _, ho, hr, hm, hb⟩ := opcodeMap_fields row hrow
  rw [word_eq_iff, hp, opField_and, ho, BitVec.and_allOnes, rsvField_and, hr, BitVec.and_allOnes, merField_and, hm,
    byteField_and, hb, opField_commandWord, rsvField_commandWord, merField_commandWord, byteField_commandWord,
    and_optional_mask_eq_zero, and_optional_mask_eq_zero, Bool.not_eq_true']

/-- R70: a row selects the words that are commands of its operation. -/
theorem selects_iff {row : OpRow} (hrow : row ∈ opcodeMap) (cw : Word16) :
    row.selects cw = true ↔
      opField cw = row.op.code ∧ rsvField cw = 0b00#2 ∧ row.op.admits (merField cw) (byteField cw) := by
  obtain ⟨_, hconstraint, _⟩ := opcodeMap_fields row hrow
  have hsel : row.selects cw = true ↔
      cw &&& row.mask = row.pattern ∧ (row.op.takesMer = true → merField cw ≠ 0b11#2) := by
    rw [OpRow.selects, hconstraint, Bool.and_eq_true, beq_iff_eq, Bool.or_eq_true, bne_iff_ne, Ne,
      and_mer_mask_eq_iff, Bool.not_eq_true', ← Bool.not_eq_true, ← imp_iff_not_or]
  rw [hsel, matches_iff hrow, Op.admits]
  cases row.op.takesMer <;> simp [and_left_comm, and_comm]

/-- R70: the map selects the words that are commands. -/
theorem wellFormed_iff_accepted (c : Command) : c.wellFormed = true ↔ accepted c.cw := by
  rw [Command.wellFormed, List.any_eq_true]
  constructor
  · rintro ⟨row, hrow, hsel⟩
    exact ⟨row.op, (selects_iff hrow c.cw).1 hsel⟩
  · rintro ⟨op, hop⟩
    obtain ⟨row, hrow, rfl⟩ := exists_row op
    exact ⟨row, hrow, (selects_iff hrow c.cw).2 hop⟩

/-- Settles O18: map and decoder both accept the words that are commands, and the operation field tells the rows apart. -/
theorem decoderFollowsTheOpcodeMap : Obligations.DecoderFollowsTheOpcodeMap := by
  refine ⟨fun c => (wellFormed_iff_accepted c).trans (decode_ok_iff_accepted c).symm, ?_, ?_⟩
  · intro c i row hrow hsel hdec
    obtain ⟨hop, _⟩ := (selects_iff hrow c.cw).1 hsel
    obtain ⟨hword, _⟩ := encode_of_decode hdec
    exact Op.code_injective (by rw [← hop, ← hword, (encode_op_rsv i).1])
  · intro cw row row' hrow hrow' hsel hsel'
    obtain ⟨hop, _⟩ := (selects_iff hrow cw).1 hsel
    obtain ⟨hop', _⟩ := (selects_iff hrow' cw).1 hsel'
    exact row_eq_of_op row hrow row' hrow' (Op.code_injective (hop.symm.trans hop'))

/-! ### Reserved words -/

/-- R71: the operation codes without an operation. -/
theorem Op.ofCode?_eq_none : ∀ c : BitVec 4, Op.ofCode? c = none ↔ c.toNat = 0 ∨ c.toNat = 7 ∨ 11 ≤ c.toNat := by
  decide

/-- R71: among the words of an operation, those are reserved that have reserved bits set or fields it does not admit. -/
theorem reservedByRule_of_op {cw : Word16} {op : Op} (ho : opField cw = op.code) :
    reservedByRule cw = true ↔ rsvField cw ≠ 0b00#2 ∨ ¬ op.admits (merField cw) (byteField cw) := by
  have hop : cw.toNat / 4096 = op.code.toNat := by rw [← opField_toNat, ho]
  simp only [reservedByRule, ← rsvField_toNat, ← merField_toNat, ← byteField_toNat, hop]
  -- with the operation known, the rule's list and `Op.admits` are the same conditions in another order
  cases op <;>
    simp [Op.code, Op.admits, Op.takesMer, Op.isTransaction, BitVec.toNat_eq, or_assoc, or_left_comm, or_comm,
      imp_iff_not_or]

/-- R71: the reserved words are those that are no commands. -/
theorem reservedByRule_iff (cw : Word16) : reservedByRule cw = true ↔ ¬ accepted cw := by
  cases hop : Op.ofCode? (opField cw) with
  | none =>
    have hcode := (Op.ofCode?_eq_none _).1 hop
    rw [opField_toNat] at hcode
    refine iff_of_true ?_ ?_
    · rcases hcode with h | h | h <;> simp [reservedByRule, h]
    · rintro ⟨op, ho, _⟩
      rw [ho, Op.ofCode?_code] at hop
      cases hop
  | some op =>
    have ho := (Op.code_of_ofCode? _ _ hop).symm
    rw [reservedByRule_of_op ho, ← not_and_or]
    refine not_congr ⟨fun h => ⟨op, ho, h⟩, ?_⟩
    rintro ⟨op', ho', h⟩
    rwa [← Op.code_injective (ho'.symm.trans ho)]

/-- The decoder rejects what it does not accept. -/
theorem decode_error_iff (c : Command) : (∃ why, decode c = .error why) ↔ ¬ ∃ i, decode c = .ok i := by
  cases decode c <;> simp

/-- R71: an idle core has no step for a word that does not decode. -/
theorem step_rejected {s : State} {c : Command} {why : Reject} {rest : List Input} (hp : s.phase = .idle)
    (hin : s.inputs = .command c :: rest) (hd : decode c = .error why) : step s = .refused (.reservedWord why) := by
  simp [step, nextMove, hin, hp, acceptCommand, hd]

/-- R71: the words the rule lists are those the decoder rejects. -/
theorem reserved_iff_decode_error (c : Command) : reservedByRule c.cw = true ↔ ∃ why, decode c = .error why := by
  rw [reservedByRule_iff, decode_error_iff, decode_ok_iff_accepted]

/-- Settles O19: the rule's list is the complement of the accepted words, and the accept step names the decoder's reason. -/
theorem reservedWordsAreRefused : Obligations.ReservedWordsAreRefused := by
  refine ⟨reserved_iff_decode_error, fun s c rest hp hin hres => ?_⟩
  obtain ⟨why, hd⟩ := (reserved_iff_decode_error c).1 hres
  exact ⟨why, step_rejected hp hin hd⟩

/-! ### Written-out words and assembler lines -/

/-- Settles O20: the decoder runs on each of the words. -/
theorem writtenOutWordsDecode : Obligations.WrittenOutWordsDecode := by
  unfold Obligations.WrittenOutWordsDecode
  decide

/-- R68: the command word as its fields, shifted to their places and put together. -/
theorem commandWord_eq_or (op : Op) (m : BitVec 2) (a : Byte) :
    commandWord op m a = op.code.setWidth 16 <<< 12 ||| m.setWidth 16 <<< 8 ||| a.setWidth 16 := by
  apply BitVec.eq_of_getLsbD_eq
  intro i hi
  rw [commandWord_getLsbD]
  simp only [BitVec.getLsbD_or, BitVec.getLsbD_shiftLeft, BitVec.getLsbD_setWidth]
  split_ifs with h8 h10 h12
  · simp [hi, h8, show i < 12 by omega]
  · simp [hi, h8, BitVec.getLsbD_of_ge a i (by omega), show i < 12 by omega, show i - 8 < 16 by omega]
  · simp [hi, h8, h12, BitVec.getLsbD_of_ge m (i - 8) (by omega), BitVec.getLsbD_of_ge a i (by omega)]
  · simp [hi, h12, BitVec.getLsbD_of_ge m (i - 8) (by omega), BitVec.getLsbD_of_ge a i (by omega),
      show i - 12 < 16 by omega]

/-- R74: the command word of an operation, a meridian code and a byte operand. -/
theorem commandWord_ofNat (op : Op) (m : BitVec 2) {n : Nat} (hn : n < 256) :
    commandWord op m (BitVec.ofNat 8 n) =
      op.code.setWidth 16 <<< 12 ||| m.setWidth 16 <<< 8 ||| BitVec.ofNat 16 n := by
  have hwidth : (BitVec.ofNat 8 n).setWidth 16 = BitVec.ofNat 16 n := by
    apply BitVec.eq_of_toNat_eq
    rw [BitVec.toNat_setWidth, BitVec.toNat_ofNat, BitVec.toNat_ofNat]
    omega
  rw [commandWord_eq_or, hwidth]

/-- R74: a line that is not well formed stands for no command. -/
theorem wellFormed_of_assemble {l : AsmLine} {i : Instr} (h : assemble l = some i) : l.wellFormed = true := by
  unfold assemble at h
  split at h
  · assumption
  · cases h

/-- R74: eight byte operands are a record. -/
theorem exists_record_of_length {ns : List Nat} (h : ns.length = 8) :
    ∃ r, blockOfList (ns.map (BitVec.ofNat 8)) = some r := by
  obtain ⟨r, _, hr⟩ := exists_block_of_length (d := ns.map (BitVec.ofNat 8)) (by rw [List.length_map, h])
  exact ⟨r, hr⟩

/-- R74: a `WRT` line of eight byte operands stands for `WRT` with their record. -/
theorem assemble_wrt {ns : List Nat} {r : Rec} (m : Mer) (hlen : ns.length = 8) (hbytes : ns.all byteOperand = true)
    (hr : blockOfList (ns.map (BitVec.ofNat 8)) = some r) :
    assemble ⟨.wrt, [.record ns, .mer m]⟩ = some (.wrt r m) := by
  have hwf : AsmLine.wellFormed ⟨.wrt, [.record ns, .mer m]⟩ = true :=
    Bool.and_eq_true_iff.2 ⟨beq_iff_eq.2 hlen, hbytes⟩
  exact (if_pos hwf).trans (congrArg (Option.map (Instr.wrt · m)) hr)

/-- R74: a line that is well formed stands for a command. -/
theorem assemble_of_wellFormed {l : AsmLine} (h : l.wellFormed = true) : ∃ i, assemble l = some i := by
  obtain ⟨op, operands⟩ := l
  have hwf := h
  unfold AsmLine.wellFormed at h
  split at h
  case h_9 ns m hop hns =>
    subst hop hns
    obtain ⟨hlen, hbytes⟩ := Bool.and_eq_true_iff.1 h
    obtain ⟨r, hr⟩ := exists_record_of_length (beq_iff_eq.1 hlen)
    exact ⟨_, assemble_wrt m (beq_iff_eq.1 hlen) hbytes hr⟩
  case h_10 => cases h
  all_goals
    subst_vars
    exact ⟨_, if_pos hwf⟩

/-- R74: a record's bytes, written as numbers, are byte operands. -/
theorem all_byteOperand_toNat (d : List Byte) : (d.map BitVec.toNat).all byteOperand = true := by
  rw [List.all_eq_true]
  intro n hn
  obtain ⟨b, _, rfl⟩ := List.mem_map.1 hn
  exact decide_eq_true b.isLt

/-- R74: a record's bytes, written as numbers, give the record back. -/
theorem blockOfList_ofNat_toNat (r : Rec) :
    blockOfList (((blockToList r).map BitVec.toNat).map (BitVec.ofNat 8)) = some r := by
  have hback : BitVec.ofNat 8 ∘ BitVec.toNat = (id : Byte → Byte) :=
    funext fun b => (BitVec.ofNat_toNat 8 b).trans (BitVec.setWidth_eq b)
  rw [List.map_map, hback, List.map_id, blockOfList_blockToList]

/-- R74: the word of a line that stands for a command. -/
theorem assembledWord_eq {l : AsmLine} {i : Instr} {w : Word16} (h : assemble l = some i) (hw : (encode i).cw = w) :
    assembledWord l = some w := by
  rw [assembledWord, h, Option.map_some, hw]

/-- Settles O21: each row of R74 stands for its command, whose word is its fields put together. -/
theorem assemblerLinesHaveTheirWords : Obligations.AssemblerLinesHaveTheirWords := by
  refine ⟨fun l => ⟨assemble_of_wellFormed, fun ⟨_, h⟩ => wellFormed_of_assemble h⟩, fun n hn => ?_, rfl, rfl,
    fun r m => ⟨?_, ?_, rfl⟩⟩
  · have hwf : byteOperand n = true := decide_eq_true hn
    have hword (op : Op) (m : BitVec 2) := commandWord_ofNat op m hn
    exact ⟨assembledWord_eq (if_pos hwf) (hword .dsec 0b00#2), assembledWord_eq (if_pos hwf) (hword .dgen 0b00#2),
      assembledWord_eq (if_pos hwf) (hword .dhrs 0b00#2), assembledWord_eq (if_pos hwf) (hword .dmer 0b00#2),
      assembledWord_eq (if_pos hwf) (hword .edp 0b00#2), fun m => assembledWord_eq (if_pos hwf) (hword .ehrs m.code)⟩
  · exact assemble_wrt m rfl (all_byteOperand_toNat _) (blockOfList_ofNat_toNat r)
  · exact (commandWord_eq_or .wrt m.code 0x00#8).trans BitVec.or_zero

/-! ### Meridian codes and the response word -/

/-- R72: the fields of the response word. -/
theorem responseWord_fields (r : Response) : opField r.word = r.op.code ∧ rsvField r.word = r.status.code ∧
    merField r.word = r.m.code ∧ byteField r.word = r.val := by
  refine ⟨?_, ?_, ?_, ?_⟩
  · rw [opField, Response.word, BitVec.extractLsb'_append_eq_of_le (by decide),
      BitVec.extractLsb'_append_eq_of_le (by decide)]
    exact BitVec.extractLsb'_append_eq_left
  · rw [rsvField, Response.word, BitVec.extractLsb'_append_eq_of_le (by decide),
      BitVec.extractLsb'_append_eq_of_le (by decide)]
    exact BitVec.extractLsb'_append_eq_right
  · rw [merField, Response.word, BitVec.extractLsb'_append_eq_of_le (by decide)]
    exact BitVec.extractLsb'_append_eq_right
  · exact BitVec.extractLsb'_append_eq_right

/-- R73: whatever the code of a further error, it is one of the three failure codes. -/
theorem errCode_ne_zero (e : BusErr) : errCode e ≠ 0b00#2 := by
  have hfree : ∀ k : Fin 3, BitVec.ofNat 2 (k.val + 1) ≠ 0b00#2 := by decide
  cases e with
  | timeout | nack | arbLost => decide
  | other n => exact hfree (Config.otherErrCode n)

/-- Settles O22: 11 is no meridian's code, a response carries a meridian's code, and no accepted word has 11. -/
theorem meridianCodeElevenNeverOccurs : Obligations.MeridianCodeElevenNeverOccurs := by
  refine ⟨rfl, rfl, rfl, fun c m => ⟨Mer.code_of_ofCode? c m, ?_⟩, rfl, fun r => ?_, fun c i h => ?_⟩
  · rintro rfl
    exact Mer.ofCode?_code m
  · obtain ⟨_, _, hm, _⟩ := responseWord_fields r
    exact (Mer.exists_code_iff _).1 ⟨r.m, hm.symm⟩
  · obtain ⟨op, _, _, hadmits⟩ := (decode_ok_iff_accepted c).1 ⟨i, h⟩
    exact Op.mer_ne_eleven_of_admits hadmits

/-- Settles O23: the word's four fields, and the codes of the statuses, of which no failure has 00. -/
theorem responseWordHasItsFields : Obligations.ResponseWordHasItsFields :=
  ⟨responseWord_fields, rfl, rfl, rfl, rfl, errCode_ne_zero⟩

end Sys2Proof
end

section
/-! SUPPORT. The decode commands: the words of format B, the frame of a response, and the values of the four decoders. -/

namespace Sys2Proof

open Sys2Proof.Machine

/-! ### Words and responses of the codec commands -/

/-- R69, format B: the command word is the operation code over the byte operand. -/
theorem commandWord_formatB (op : Op) (a : Byte) :
    commandWord op 0b00#2 a = op.code.setWidth 16 <<< 12 ||| a.setWidth 16 := by
  rw [commandWord_eq_or]
  exact congrArg (· ||| a.setWidth 16) BitVec.or_zero

/-- R68, R70: a command's word decodes to it whatever record stands beside the word, unless it is `WRT`. -/
theorem decode_of_word_eq {i : Instr} {cw : Word16} (hcw : (encode i).cw = cw) (hi : i.op ≠ .wrt) (w : Rec) :
    decode ⟨cw, w⟩ = .ok i := by
  rw [← hcw]
  exact decode_encode_word i w fun h => absurd h hi

/-- R22(a), R72, R84: a meaning that only responds, for another command than `RDT`, sends one OK response without a record,
of which `Q` says what the payload does, and leaves the rest as the codec's frame asks. -/
theorem exists_codec_response {op : Op} {p : Payload} {s : State} {o : Outcome} {Q : Response → Prop}
    (ho : o = .next (respond op .ok p s)) (hop : op ≠ .rdt) (hQ : Q (responseOf op .ok p s.draws)) :
    ∃ t r, o = .next t ∧ codecFrame s t ∧ t.responses = s.responses ++ [r] ∧
      r.op = op ∧ r.status = .ok ∧ r.rrec = none ∧ Q r :=
  ⟨_, _, ho, ⟨rfl, rfl, rfl, rfl, rfl⟩, respond_responses .., rfl, rfl, responseOf_rrec_other hop .., hQ⟩

section Idle

variable (b : Byte) {s : State} (hp : s.phase = .idle)
include hp

/-- R80: the one step of `DSEC`. -/
theorem exec_dsec_idle : exec (.dsec b) s = .next (respond .dsec .ok { val := some (decSec b) } s) := by
  simp only [exec, execDsec, whenIdle_idle hp]

/-- R81: the one step of `DGEN`. -/
theorem exec_dgen_idle : exec (.dgen b) s = .next (respond .dgen .ok { val := some (decGen b) } s) := by
  simp only [exec, execDgen, whenIdle_idle hp]

/-- R82: the one step of `DHRS`. -/
theorem exec_dhrs_idle : exec (.dhrs b) s = .next (respond .dhrs .ok { val := some (decHrs b) } s) := by
  simp only [exec, execDhrs, whenIdle_idle hp]

/-- R83: the one step of `DMER`. -/
theorem exec_dmer_idle : exec (.dmer b) s = .next (respond .dmer .ok { m := some (decMer b) } s) := by
  simp only [exec, execDmer, whenIdle_idle hp]

end Idle

/-! ### The bits a decoder reads -/

/-- R8: a field of `w` bits. -/
theorem bits_lt (b : Byte) (lo w : Nat) : bits b lo w < 2 ^ w := Nat.mod_lt _ (Nat.two_pow_pos w)

/-- R8: a field and the bit above it. -/
theorem bits_succ (b : Byte) (lo w : Nat) :
    bits b lo (w + 1) = bits b lo w + 2 ^ w * (b.getLsbD (lo + w)).toNat := by
  have htop : (b.getLsbD (lo + w)).toNat = b.toNat / 2 ^ lo / 2 ^ w % 2 := by
    rw [BitVec.getLsbD, Nat.toNat_testBit, Nat.pow_add, Nat.div_div_eq_div_mul]
  rw [bits, Nat.mod_pow_succ, htop, bits]

/-- A mask that clears bit 7 clears it whatever it was. -/
theorem or_bit7_and {mask : Byte} (hmask : 0x80#8 &&& mask = 0#8) (b : Byte) :
    (b ||| 0x80#8) &&& mask = b &&& mask := by
  rw [BitVec.and_or_distrib_right, hmask, BitVec.or_zero]

/-- R63: the clock mode is bit 6. -/
theorem mode12_or_bit7 (b : Byte) : mode12 (b ||| 0x80#8) = mode12 b := by simp [mode12]

/-- R80: bit 7 has no effect. -/
theorem decSec_or_bit7 (b : Byte) : decSec (b ||| 0x80#8) = decSec b := by
  rw [decSec, or_bit7_and rfl, decSec]

/-- R82: bit 7 never matters, as neither mode's mask keeps it. -/
theorem decHrs_or_bit7 (b : Byte) : decHrs (b ||| 0x80#8) = decHrs b := by
  rw [decHrs, mode12_or_bit7, or_bit7_and rfl, or_bit7_and rfl, decHrs]

/-- R83: only bits 6 and 5 are read. -/
theorem decMer_and_bits65 (b : Byte) : decMer (b &&& 0x60#8) = decMer b := by
  have hmode : mode12 (b &&& 0x60#8) = mode12 b := by simp [mode12]
  have hpm : pmBit (b &&& 0x60#8) = pmBit b := by simp [pmBit]
  rw [decMer, hmode, hpm, decMer]

/-! ### The ranges of the values -/

/-- R80: at most 7 tens and 15. -/
theorem secondsValue_le (b : Byte) : secondsValue b ≤ 85 := by
  have htens := bits_lt b 4 3
  have hones := bits_lt b 0 4
  unfold secondsValue
  omega

/-- R81: at most 15 tens and 15. -/
theorem genericValue_le (b : Byte) : genericValue b ≤ 165 := by
  have htens := bits_lt b 4 4
  have hones := bits_lt b 0 4
  unfold genericValue
  omega

/-- R82: at most 1 ten and 15 in 12-hour mode, 3 tens and 15 in 24-hour mode. -/
theorem hoursValue_le (b : Byte) : hoursValue b ≤ if bits b 6 1 = 1 then 25 else 45 := by
  have hones := bits_lt b 0 4
  unfold hoursValue
  split
  · have htens := bits_lt b 4 1
    omega
  · have htens := bits_lt b 4 2
    omega

/-- R81: where bit 7 is 0 the tens digit is `b[6:4]`, and the two readings of C1 agree. -/
theorem genericValue_of_bit7 {b : Byte} (h : b.getLsbD 7 = false) :
    genericValue b = bits b 4 3 * 10 + bits b 0 4 := by
  have htens : bits b 4 4 = bits b 4 3 := by rw [bits_succ, h, Bool.toNat_false, Nat.mul_zero, Nat.add_zero]
  rw [genericValue, htens]

/-- R90: up to 159 the digit pair is not cut. -/
theorem digitPair_toNat {v : Dec} (hv : v.toNat ≤ 159) :
    (digitPair v).toNat = 16 * (v.toNat / 10) + v.toNat % 10 := by
  rw [digitPair, BitVec.toNat_ofNat]
  omega

/-- R81, R95: the generic byte of a digit pair has the value it was made from. -/
theorem genericValue_digitPair {v : Dec} (hv : v.toNat ≤ 159) : genericValue (digitPair v) = v.toNat := by
  rw [genericValue, bits, bits, digitPair_toNat hv]
  omega

/-! ### The four commands -/

/-- Settles O1: the mask `0x7F` drops bit 7, and the response carries the seconds value. -/
theorem dsecDecodesTheSecondsByte : Obligations.DsecDecodesTheSecondsByte :=
  fun b => ⟨decode_of_word_eq (commandWord_formatB .dsec b) nofun, decSec_or_bit7 b, rfl, secondsValue_le b,
    fun _ hp => exists_codec_response (exec_dsec_idle b hp) nofun (decSec_toNat b)⟩

/-- Settles O2: the whole high nibble is the tens digit, so a digit pair that was not cut decodes back. -/
theorem dgenDecodesTheGenericByte : Obligations.DgenDecodesTheGenericByte := by
  refine fun b => ⟨decode_of_word_eq (commandWord_formatB .dgen b) nofun, genericValue_le b, genericValue_of_bit7,
    ?_, fun _ hp => exists_codec_response (exec_dgen_idle b hp) nofun (decGen_toNat b)⟩
  rintro v hv rfl
  exact genericValue_digitPair hv

/-- Settles O3: both modes' masks drop bit 7, and the response carries the hour of the byte's own mode. -/
theorem dhrsDecodesTheHoursByte : Obligations.DhrsDecodesTheHoursByte :=
  fun b => ⟨decode_of_word_eq (commandWord_formatB .dhrs b) nofun, decHrs_or_bit7 b, hoursValue_le b,
    fun _ hp => exists_codec_response (exec_dhrs_idle b hp) nofun (decHrs_toNat b)⟩

/-- Settles O4: the mode and the PM bit are bits 6 and 5, and the response carries the meridian they tell. -/
theorem dmerDecodesTheMeridian : Obligations.DmerDecodesTheMeridian :=
  fun b => ⟨decode_of_word_eq (commandWord_formatB .dmer b) nofun, decMer_and_bits65 b,
    fun _ hp => exists_codec_response (exec_dmer_idle b hp) nofun (decMer_eq b)⟩

end Sys2Proof
end

section
/-! SUPPORT. The encode commands: their words and one step each, and the round trips of the digit pair and the hours byte. -/

namespace Sys2Proof

open Sys2Proof.Machine

/-! ### The two commands -/

section Idle

variable {s : State} (hp : s.phase = .idle)
include hp

/-- R90: the one step of `EDP`. -/
theorem exec_edp_idle (v : Dec) : exec (.edp v) s = .next (respond .edp .ok { val := some (encDp v) } s) := by
  simp only [exec, execEdp, whenIdle_idle hp]

/-- R91: the one step of `EHRS`. -/
theorem exec_ehrs_idle (h : Dec) (m : Mer) :
    exec (.ehrs h m) s = .next (respond .ehrs .ok { val := some (encHrs h m) } s) := by
  simp only [exec, execEhrs, whenIdle_idle hp]

end Idle

/-- Settles O5: a word of format B, and the response carries the digit pair with its cut. -/
theorem edpPacksTheDigitPair : Obligations.EdpPacksTheDigitPair :=
  fun v => ⟨decode_of_word_eq (commandWord_formatB .edp v) nofun,
    fun _ hp => exists_codec_response (exec_edp_idle hp v) nofun (encDp_eq v)⟩

/-- Settles O6: the word carries the meridian's code above the hour, and the response carries the hours byte. -/
theorem ehrsPacksTheHoursByte : Obligations.EhrsPacksTheHoursByte :=
  fun h m => ⟨decode_of_word_eq (commandWord_eq_or .ehrs m.code h) nofun,
    fun _ hp => exists_codec_response (exec_ehrs_idle hp h m) nofun (encHrs_isHoursByte h m)⟩

/-! ### The fields of an encoded byte -/

/-- R8: a field is told by its bits. -/
theorem bits_congr {x y : Byte} {lo w : Nat} (h : ∀ k, k < w → x.getLsbD (lo + k) = y.getLsbD (lo + k)) :
    bits x lo w = bits y lo w := by
  induction w with
  | zero => rw [bits, bits, Nat.pow_zero, Nat.mod_one, Nat.mod_one]
  | succ w ih => rw [bits_succ, bits_succ, ih fun k hk => h k (Nat.lt_succ_of_lt hk), h w (Nat.lt_succ_self w)]

/-- R8: a field of one bit. -/
theorem bits_one (b : Byte) (lo : Nat) : bits b lo 1 = (b.getLsbD lo).toNat := by
  rw [bits, BitVec.getLsbD, Nat.toNat_testBit, Nat.pow_one]

/-- R80, R95: up to 79 the digit pair leaves bit 7 clear, and the seconds byte has the value it was made from. -/
theorem secondsValue_digitPair {v : Dec} (hv : v.toNat ≤ 79) : secondsValue (digitPair v) = v.toNat := by
  rw [secondsValue, bits, bits, digitPair_toNat (by omega)]
  omega

/-- R91, R95: up to 39 the digit pair leaves bit 6 clear, so it is a byte of 24-hour mode. -/
theorem bit6_digitPair {h : Dec} (hh : h.toNat ≤ 39) : bits (digitPair h) 6 1 = 0 := by
  have hlt : (digitPair h).toNat < 2 ^ 6 := by
    rw [digitPair_toNat (by omega)]
    omega
  rw [bits, Nat.div_eq_of_lt hlt, Nat.zero_mod]

/-- R82, R95: up to 39 the tens digit fits the two bits of 24-hour mode. -/
theorem hoursValue_digitPair {h : Dec} (hh : h.toNat ≤ 39) : hoursValue (digitPair h) = h.toNat := by
  rw [hoursValue, bit6_digitPair hh, if_neg Nat.zero_ne_one, bits, bits, digitPair_toNat (by omega)]
  omega

section TwelveHour

variable {m : Mer} (hm : m ≠ .h24) (h : Dec)
include hm

/-- R91: AM and PM set the clock-mode flag. -/
theorem bit6_encHrs : bits (encHrs h m) 6 1 = 1 := by
  obtain ⟨h6, _, _⟩ := (encHrs_isHoursByte h m).2 hm
  rw [bits_one, h6, Bool.toNat_true]

/-- R91: AM and PM are told apart by bit 5. -/
theorem bit5_encHrs : bits (encHrs h m) 5 1 = if m = .pm then 1 else 0 := by
  obtain ⟨_, h5, _⟩ := (encHrs_isHoursByte h m).2 hm
  rw [bits_one, h5, Bool.toNat, Bool.cond_decide]

/-- R82, R91: with AM or PM the hour reads back from the low five bits of the digit pair. -/
theorem hoursValue_encHrs :
    hoursValue (encHrs h m) = bits (digitPair h) 4 1 * 10 + bits (digitPair h) 0 4 := by
  obtain ⟨_, _, hlow⟩ := (encHrs_isHoursByte h m).2 hm
  have htens : bits (encHrs h m) 4 1 = bits (digitPair h) 4 1 :=
    bits_congr fun k hk => hlow (4 + k) (by omega) (by omega) (by omega)
  have hones : bits (encHrs h m) 0 4 = bits (digitPair h) 0 4 :=
    bits_congr fun k hk => hlow (0 + k) (by omega) (by omega) (by omega)
  rw [hoursValue, if_pos (bit6_encHrs hm h), htens, hones]

end TwelveHour

/-! ### The laws of R95 -/

/-- R95: `dec_gen` undoes `enc_dp` up to 159. -/
theorem decGen_encDp {v : Dec} (hv : v.toNat ≤ 159) : decGen (encDp v) = v :=
  BitVec.eq_of_toNat_eq (by rw [decGen_toNat, encDp_eq, genericValue_digitPair hv])

/-- R95: `dec_sec` undoes `enc_dp` up to 79. -/
theorem decSec_encDp {v : Dec} (hv : v.toNat ≤ 79) : decSec (encDp v) = v :=
  BitVec.eq_of_toNat_eq (by rw [decSec_toNat, encDp_eq, secondsValue_digitPair hv])

/-- R91: with H24 the hours byte is the digit pair. -/
theorem encHrs_h24 (h : Dec) : encHrs h .h24 = digitPair h := encDp_eq h

/-- R95: `dec_hrs` undoes `enc_hrs` with H24 up to 39. -/
theorem decHrs_encHrs_h24 {h : Dec} (hh : h.toNat ≤ 39) : decHrs (encHrs h .h24) = h :=
  BitVec.eq_of_toNat_eq (by rw [decHrs_toNat, encHrs_h24, hoursValue_digitPair hh])

/-- R95: `dec_mer` reads H24 back up to 39. -/
theorem decMer_encHrs_h24 {h : Dec} (hh : h.toNat ≤ 39) : decMer (encHrs h .h24) = .h24 := by
  rw [decMer_eq, encHrs_h24, meridianOf, if_pos (bit6_digitPair hh)]

/-- R95: `dec_hrs` undoes `enc_hrs` with AM or PM up to 19, where the tens digit fits bit 4. -/
theorem decHrs_encHrs {m : Mer} (hm : m ≠ .h24) {h : Dec} (hh : h.toNat ≤ 19) : decHrs (encHrs h m) = h := by
  apply BitVec.eq_of_toNat_eq
  rw [decHrs_toNat, hoursValue_encHrs hm, bits, bits, digitPair_toNat (by omega)]
  omega

/-- R95: at 20 the tens digit no longer fits bit 4, and the hour reads back as 0. -/
theorem decHrs_encHrs_twenty {m : Mer} (hm : m ≠ .h24) : decHrs (encHrs 20#8 m) = 0#8 :=
  BitVec.eq_of_toNat_eq (by rw [decHrs_toNat, hoursValue_encHrs hm]; rfl)

/-- R95: `dec_mer` reads AM and PM back whatever the hour. -/
theorem decMer_encHrs {m : Mer} (hm : m ≠ .h24) (h : Dec) : decMer (encHrs h m) = m := by
  rw [decMer_eq, meridianOf, bit6_encHrs hm, bit5_encHrs hm]
  cases m with
  | am | pm => rfl
  | h24 => exact absurd rfl hm

/-- R94, R95: the contracted hours read back. -/
theorem exactHour_of_legalHour {h : Dec} {m : Mer} (hl : legalHour h m = true) : exactHour h m = true := by
  cases m with
  | am | pm =>
    have hrange : 1 ≤ h.toNat ∧ h.toNat ≤ 12 := of_decide_eq_true hl
    exact decide_eq_true (by omega)
  | h24 =>
    have hrange : h.toNat ≤ 23 := of_decide_eq_true hl
    exact decide_eq_true (by omega)

/-- R94, R107: the contracted ranges lie inside the exact ones. -/
theorem exactRecord_of_legalRecord {r : Rec} {m : Mer} (hl : legalRecord r m = true) : exactRecord r m = true := by
  simp only [legalRecord, Bool.and_eq_true, decide_eq_true_eq] at hl
  obtain ⟨⟨⟨⟨⟨⟨hsec, hmin⟩, hhour⟩, _, hday⟩, _, hdate⟩, _, hmonth⟩, hyear⟩ := hl
  simp only [exactRecord, exactHour_of_legalHour hhour, Bool.and_eq_true, decide_eq_true_eq, and_true]
  omega

/-- R95: two decimal digits are read back as their number. -/
theorem decGen_encDp_digits {t o : Nat} (ht : t ≤ 5) (ho : o ≤ 9) :
    (decGen (encDp (BitVec.ofNat 8 (t * 10 + o)))).toNat = t * 10 + o := by
  have hnum : (BitVec.ofNat 8 (t * 10 + o)).toNat = t * 10 + o := by
    rw [BitVec.toNat_ofNat]
    omega
  rw [decGen_encDp (by omega), hnum]

/-- Settles O40: each law on its range; the first values beyond, 160, 80 and 40, are evaluated. -/
theorem codecRoundTripLaws : Obligations.CodecRoundTripLaws :=
  ⟨fun _ _ => decGen_encDp_digits, fun _ => decGen_encDp, by decide, fun _ => decSec_encDp, rfl,
    fun _ hh => ⟨decHrs_encHrs_h24 hh, decMer_encHrs_h24 hh⟩, by decide, by decide,
    fun _ _ hm => decHrs_encHrs hm, fun _ hm => ne_of_eq_of_ne (decHrs_encHrs_twenty hm) (by decide),
    fun h _ hm => decMer_encHrs hm h, fun _ _ => exactRecord_of_legalRecord⟩

end Sys2Proof
end

section
/-! SUPPORT. The transaction commands: their words, issue steps and complete steps, what `WRT` stores, and that a written
time and meridian read back. -/

namespace Sys2Proof

open Sys2Proof.Machine

/-! ### The complete step -/

/-- R100: a phase with a waiting operation is not IDLE. -/
theorem waits_of_waitingOp {ph : Phase} {op : Op} (h : waitingOp ph = some op) : ph ≠ .idle := by
  rintro rfl
  cases h

/-- R105: a complete step that responds, whatever inputs are left, is the machine's next step, and keeps what
`completedFrom` lists. -/
theorem exists_completion {s : State} {r : BusResp} {op : Op} {st : Status} {p : Payload} {Q : Response → Prop}
    (hp : waitingOp s.phase = some op) (hb : s.bus = .answered r) (hu : undisturbed s = true)
    (hc : ∀ u : State, u.phase = s.phase → complete r u = .next (endTransaction (respond op st p u)))
    (hQ : Q (responseOf op st p s.draws)) :
    ∃ t r, step s = .next t ∧ completedFrom s t ∧ t.responses = s.responses ++ [r] ∧ r.op = op ∧ r.status = st ∧ Q r :=
  ⟨_, _, (step_answered (waits_of_waitingOp hp) hb hu).trans (hc _ rfl), ⟨rfl, rfl, rfl, rfl, rfl⟩, rfl, rfl, rfl, hQ⟩

/-- R105, R110: the complete step of a failure, whichever command waits. -/
theorem exists_failed_completion {s : State} {op : Op} {e : BusErr} (hp : waitingOp s.phase = some op)
    (hb : s.bus = .answered (.fail e)) (hu : undisturbed s = true) :
    ∃ t r, step s = .next t ∧ completedFrom s t ∧ t.responses = s.responses ++ [r] ∧
      r.op = op ∧ r.status = .fail e := by
  have hcomplete := complete_fail (s := s.withInputs (afterPass s.inputs)) hp e
  exact ⟨_, _, (step_answered (waits_of_waitingOp hp) hb hu).trans hcomplete, ⟨rfl, rfl, rfl, rfl, rfl⟩, rfl, rfl, rfl⟩

/-- R101: the complete step of `RDT` on the eight bytes asked for. -/
theorem complete_rdt_ok {s : State} (hp : s.phase = .waitRdt) (d : Regs) :
    complete (.ok (blockToList d)) s =
      .next (endTransaction (respond .rdt .ok { rrec := some (decodeBlock d) } s)) := by
  simp only [complete, hp, completeRdt, blockOfList_blockToList]

/-- R102: the complete step of `RDM` on the one byte asked for. -/
theorem complete_rdm_ok {s : State} (hp : s.phase = .waitRdm) (b : Byte) :
    complete (.ok [b]) s = .next (endTransaction (respond .rdm .ok { m := some (decMer b) } s)) := by
  simp only [complete, hp, completeRdm]

/-- R103: the complete step of `WRT` on success. -/
theorem complete_wrt_ok {s : State} (hp : s.phase = .waitWrt) (d : List Byte) :
    complete (.ok d) s = .next (endTransaction (respond .wrt .ok {} s)) := by
  simp only [complete, hp, completeWrt]

/-! ### The three commands -/

/-- R69, format W: the word of `WRT` has no byte operand. -/
theorem encode_wrt_word (r : Rec) (m : Mer) :
    (encode (.wrt r m)).cw = 0xA000#16 ||| (m.code.setWidth 16 <<< 8) :=
  (commandWord_eq_or .wrt m.code 0x00#8).trans BitVec.or_zero

/-- Settles O7: the issue step sends R44's row of `RDT`, and the record answered is what the eight bytes decode to. -/
theorem rdtReadsTheTime : Obligations.RdtReadsTheTime := by
  refine ⟨decode_of_word_eq (i := .rdt) rfl nofun, fun s hp => exec_rdt_idle hp, fun s d hp hb hu => ?_,
    fun s e hp hb hu => exists_failed_completion (by rw [hp]; rfl) hb hu⟩
  obtain ⟨t, r, hstep, hframe, hresp, hop, hst, hrec⟩ :=
    exists_completion (Q := fun r => r.rrec = some (decodeBlock d)) (by rw [hp]; rfl) hb hu
      (fun _ hph => complete_rdt_ok (hph.trans hp) d) rfl
  exact ⟨t, r, decodeBlock d, hstep, hframe, hresp, hop, hst, hrec, decodeBlock_decodesTo d⟩

/-- Settles O8: the issue step sends R44's row of `RDM`, and the meridian answered is what `DMER` gives for the byte. -/
theorem rdmReadsTheMeridian : Obligations.RdmReadsTheMeridian :=
  ⟨decode_of_word_eq (i := .rdm) rfl nofun, fun _ hp => exec_rdm_idle hp,
    fun _ b hp hb hu => exists_completion (Q := fun r => r.rrec = none ∧ r.m = meridianOf b) (by rw [hp]; rfl) hb hu
      (fun _ hph => complete_rdm_ok (hph.trans hp) b) ⟨rfl, decMer_eq b⟩,
    fun _ _ hp hb hu => exists_failed_completion (by rw [hp]; rfl) hb hu⟩

/-- Settles O9: the issue step packs the buffer and sends it in R44's row of `WRT`; the transport stores what was sent. -/
theorem wrtPacksAndSendsTheRecord : Obligations.WrtPacksAndSendsTheRecord := by
  refine ⟨fun r m => ?_, fun r m s hp => ⟨packBuffer r m, packBuffer_packsTo r m, exec_wrt_idle r m hp⟩,
    fun b s rest hin hb => (step_serving_answer hb hin).trans (serve_wrt_ok b _),
    fun s hp hb hu => exists_completion (Q := fun r => r.rrec = none) (by rw [hp]; rfl) hb hu
      (fun _ hph => complete_wrt_ok (hph.trans hp) []) rfl,
    fun s e hp hb hu => exists_failed_completion (by rw [hp]; rfl) hb hu⟩
  rw [← encode_wrt_word r m]
  exact decode_encode_word (.wrt r m) r fun _ => rfl

/-- The register file ends at address 0x07. -/
theorem readByte_eq_none (b : Block) {a : Nat} (ha : 8 ≤ a) : readByte b a = none := List.getElem?_eq_none ha

/-- R103, R56(c): once `WRT`'s request is answered `ok`, the packed record is in the buffer and in the registers. -/
theorem runSteps_wrt_stored {s : State} {r : Rec} {m : Mer} {rest : List Input} (hp : s.phase = .idle)
    (hin : s.inputs = .command (encode (.wrt r m)) :: .answer .ok :: rest) :
    runSteps 2 s = .next { s with
      phase := .waitWrt, buf := packBuffer r m, periph := packBuffer r m, bus := .answered (.ok []),
      inputs := rest } := by
  have haccept := runSteps_accept rfl hp hin (exec_wrt_idle r m hp) (k := 1)
  exact haccept.trans (runSteps_succ ((step_serving_answer rfl rfl).trans (serve_wrt_ok _ _)))

/-- Settles O10: after the two steps the registers are the packed buffer. -/
theorem wrtStoresThePackedRecord : Obligations.WrtStoresThePackedRecord := by
  intro r m s rest hp _ hin
  exact ⟨_, runSteps_wrt_stored hp hin, rfl, rfl, rfl, packBuffer_packsTo r m, fun _ _ => rfl,
    fun _ ha => readByte_eq_none _ ha⟩

/-! ### What was written reads back -/

/-- R102, R57: `RDM` with a fault-free transport answers the meridian of the hours register. -/
theorem runSteps_rdm_ok {s : State} {rest : List Input} (hs : silentInputs rest = true) (hp : s.phase = .idle)
    (hin : s.inputs = .command (encode .rdm) :: .answer .ok :: rest) :
    runSteps 3 s =
      .next (endTransaction (respond .rdm .ok { m := some (decMer s.periph.hours) } (s.withInputs rest))) := by
  have haccept := runSteps_accept rfl hp hin (exec_rdm_idle hp) (k := 2)
  exact haccept.trans (runSteps_transaction nofun rfl rfl hs (serve_rdm_ok _) rfl rfl)

/-- R95: within R107's hours both readings of the hours byte give back what was packed. -/
theorem hours_read_back {h : Dec} {m : Mer} (hh : exactHour h m = true) :
    decHrs (encHrs h m) = h ∧ decMer (encHrs h m) = m := by
  cases m with
  | am | pm =>
    have hrange : h.toNat ≤ 19 := of_decide_eq_true hh
    exact ⟨decHrs_encHrs (by decide) hrange, decMer_encHrs (by decide) h⟩
  | h24 =>
    have hrange : h.toNat ≤ 39 := of_decide_eq_true hh
    exact ⟨decHrs_encHrs_h24 hrange, decMer_encHrs_h24 hrange⟩

/-- R95, R107: within the wider ranges the packed registers decode to the record, and the hours byte to the meridian. -/
theorem packed_record_reads_back {r : Rec} {m : Mer} (hr : exactRecord r m = true) :
    decodeBlock (packBuffer r m) = r ∧ decMer (packBuffer r m).hours = m := by
  simp only [exactRecord, Bool.and_eq_true, decide_eq_true_eq] at hr
  obtain ⟨⟨⟨⟨⟨⟨hsec, hmin⟩, hhour⟩, hday⟩, hdate⟩, hmonth⟩, hyear⟩ := hr
  obtain ⟨hhrs, hmer⟩ := hours_read_back hhour
  refine ⟨?_, hmer⟩
  rw [packBuffer, packInto_eq, decodeBlock]
  simp only [decSec_encDp hsec, decGen_encDp hmin, hhrs, decGen_encDp hday, decGen_encDp hdate, decGen_encDp hmonth,
    decGen_encDp hyear]

/-- Settles O11: three transactions, of which the first leaves the packed record for the other two to decode. -/
theorem writtenTimeReadsBack : Obligations.WrittenTimeReadsBack := by
  intro r m s rest hrange hs hp _ hin
  obtain ⟨hrec, hmer⟩ := packed_record_reads_back (hrange.elim exactRecord_of_legalRecord id)
  have hwrite := runSteps_wrt_ok (rest := faultFreeRun [.rdt, .rdm] ++ rest) rfl hp hin
  have hread := (runSteps_add 3 6 hwrite).trans (runSteps_add 3 3
    (runSteps_rdt_ok (rest := faultFreeRun [.rdm] ++ rest) rfl rfl rfl))
  have hrun := hread.trans (runSteps_rdm_ok hs rfl rfl)
  exact ⟨_, _, _, _, hrun, (List.append_assoc ..).trans (List.append_assoc ..), rfl, rfl, rfl, rfl, congrArg some hrec,
    rfl, rfl, hmer, rfl, rfl, rfl⟩

/-- Settles O33: both runs answer what their registers decode to, and the registers are the same. -/
theorem recordDependsOnTheRegistersOnly : Obligations.RecordDependsOnTheRegistersOnly := by
  intro s s' rest rest' hs hs' hp _ hp' _ hregs hin hin'
  have hrec' : some (decodeBlock s'.periph) = some (decodeBlock s.periph) := by rw [hregs]
  exact ⟨_, _, _, _, decodeBlock s.periph, runSteps_rdt_ok hs hp hin, runSteps_rdt_ok hs' hp' hin', rfl, rfl, rfl,
    hrec', decodeBlock_decodesTo _⟩

end Sys2Proof
end

section
/-! SUPPORT. One step of the machine: when a command is accepted, how the phase moves, when a response is sent, that a
coherent machine goes on, and that a run that is over stays over. -/

namespace Sys2Proof

open Sys2Proof.Machine

/-! ### Accepting -/

/-- A word of the opcode table stands for what its bits decode to. -/
theorem decode_of_tableWord {nbits w : Nat} {i : Instr} (h : decodeTableWord nbits w = some i) :
    decode (commandOfBits nbits w) = .ok i := by
  unfold decodeTableWord at h
  split at h
  · cases h; assumption
  · cases h

/-- Settles O24: both are the accept step, the second of the state `withFetchWord` makes. -/
theorem stepRunsTheDecodedCommand : Obligations.StepRunsTheDecodedCommand :=
  ⟨fun _ _ _ _ hp hin hd => step_command hp hin hd, fun _ _ _ _ h => step_command rfl rfl (decode_of_tableWord h)⟩

/-! ### The phase -/

/-- R100: staying is among the table's moves. -/
theorem phase_mem_phaseMoves (ph : Phase) : ph ∈ phaseMoves ph := by
  cases ph <;> decide

/-- R100, R130: so is going to IDLE. -/
theorem idle_mem_phaseMoves (ph : Phase) : .idle ∈ phaseMoves ph := by
  cases ph <;> decide

/-- R100: an idle core may go to any phase. -/
theorem mem_phaseMoves_idle (ph : Phase) : ph ∈ phaseMoves .idle := by
  cases ph <;> decide

/-- The transport leaves the phase. -/
theorem serve_phase {q : BusReq} {a : Answer} {s t : State} (h : serve q a s = .next t) : t.phase = s.phase := by
  obtain ⟨_, r, _, hp, _⟩ := serve_next h
  exact hp

/-- Settles O26, by the agent that moves: a reset and a completion go to IDLE, an accepted command starts there, and the
other moves leave the phase. -/
theorem phaseMovesByTheTable : Obligations.PhaseMovesByTheTable := by
  intro s t hstep
  cases step_next hstep with
  | wait hb hs ht => rw [ht]; exact phase_mem_phaseMoves _
  | pass rest hin ht => rw [ht]; exact phase_mem_phaseMoves _
  | peripheral p rest hin ht => rw [ht]; exact phase_mem_phaseMoves _
  | reset rest hin ht => rw [ht]; exact idle_mem_phaseMoves _
  | accept c i rest hp hin hd ht => rw [hp]; exact mem_phaseMoves_idle _
  | answer q a rest hb hin ht => rw [serve_phase ht]; exact phase_mem_phaseMoves _
  | free q hb hs ht => rw [serve_phase ht]; exact phase_mem_phaseMoves _
  | complete r hb hu ht => rw [(complete_idle_quiet ht).1]; exact idle_mem_phaseMoves _

/-! ### Responses -/

/-- The transport sends no response. -/
theorem serve_responses {q : BusReq} {a : Answer} {s t : State} (h : serve q a s = .next t) :
    t.responses = s.responses := by
  obtain ⟨_, r, _, _, _, hresp, _⟩ := serve_next h
  exact hresp

/-- R105, R116: the complete step sends one response, of the operation that waited, and ends the transaction. -/
theorem complete_responds {r : BusResp} {s t : State} (h : complete r s = .next t) :
    ∃ r', t.responses = s.responses ++ [r'] ∧ waitingOp s.phase = some r'.op ∧ t.phase = .idle ∧ t.bus = .quiet ∧
      t.inputs = s.inputs := by
  obtain ⟨op, st, p, hw, rfl, _⟩ := complete_next h
  exact ⟨_, rfl, hw, rfl, rfl, rfl⟩

/-- R100: the waiting operation, phase by phase. -/
theorem op_by_phase {ph : Phase} {op : Op} (h : waitingOp ph = some op) :
    (ph = .waitRdt → op = .rdt) ∧ (ph = .waitRdm → op = .rdm) ∧ (ph = .waitWrt → op = .wrt) := by
  cases ph <;> cases h <;> simp

/-- R80 to R91, R100: an accepted codec command sends one response, of its operation, and the core stays idle; an
accepted transaction command sends none, and the core waits with its operation. -/
theorem exec_responds {i : Instr} {s t : State} (h : exec i s = .next t) :
    (i.op.isTransaction = false → t.phase = .idle ∧ ∃ r, t.responses = s.responses ++ [r] ∧ r.op = i.op) ∧
    (i.op.isTransaction = true → waitingOp t.phase = some i.op ∧ t.responses = s.responses) := by
  obtain ⟨hp, ⟨hi, p, rfl⟩ | ⟨rfl, rfl⟩ | ⟨rfl, rfl⟩ | ⟨r, m, rfl, rfl⟩⟩ := exec_next h
  · rw [hi]; exact ⟨fun _ => ⟨hp, _, rfl, rfl⟩, nofun⟩
  · exact ⟨nofun, fun _ => ⟨rfl, rfl⟩⟩
  · exact ⟨nofun, fun _ => ⟨rfl, rfl⟩⟩
  · exact ⟨nofun, fun _ => ⟨rfl, rfl⟩⟩

/-- R105, R114, R116: a step that is no reset sends no response, and then leaves the phase or accepts a command; or it
sends one and leaves the core idle, and then completes the operation that waited or accepts a command. -/
theorem responses_of_step {s t : State} (h : step s = .next t) (hr : ∀ rest, s.inputs ≠ .reset :: rest) :
    (t.responses = s.responses ∧ (t.phase = s.phase ∨ s.phase = .idle)) ∨
    ∃ r, t.responses = s.responses ++ [r] ∧ t.phase = .idle ∧
      (waitingOp s.phase = some r.op ∨ s.phase = .idle ∧ ∃ c rest, s.inputs = .command c :: rest) := by
  cases step_next h with
  | wait hb hs ht => rw [ht]; exact .inl ⟨rfl, .inl rfl⟩
  | pass rest hin ht => rw [ht]; exact .inl ⟨rfl, .inl rfl⟩
  | peripheral p rest hin ht => rw [ht]; exact .inl ⟨rfl, .inl rfl⟩
  | reset rest hin ht => exact absurd hin (hr rest)
  | accept c i rest hp hin hd ht =>
    obtain ⟨hcodec, htrans⟩ := exec_responds ht
    cases hi : i.op.isTransaction with
    | false =>
      obtain ⟨hidle, r, hresp, _⟩ := hcodec hi
      exact .inr ⟨r, hresp, hidle, .inr ⟨hp, c, rest, hin⟩⟩
    | true => exact .inl ⟨(htrans hi).2, .inr hp⟩
  | answer q a rest hb hin ht =>
    have hresp := serve_responses ht
    have hph := serve_phase ht
    exact .inl ⟨hresp, .inl hph⟩
  | free q hb hs ht =>
    have hresp := serve_responses ht
    have hph := serve_phase ht
    exact .inl ⟨hresp, .inl hph⟩
  | complete r hb hu ht =>
    obtain ⟨r', hresp, hw, hidle, _⟩ := complete_responds ht
    exact .inr ⟨r', hresp, hidle, .inl hw⟩

/-- Settles O30: the clauses read off `responses_of_step`, and for an accepted command off its meaning. -/
theorem atMostOneResponsePerStep : Obligations.AtMostOneResponsePerStep := by
  intro s t hstep hr
  have haccept : s.phase = .idle → ∀ c i rest, s.inputs = .command c :: rest → decode c = .ok i →
      (i.op.isTransaction = false → t.phase = .idle ∧ ∃ r, t.responses = s.responses ++ [r] ∧ r.op = i.op) ∧
      (i.op.isTransaction = true → t.phase ≠ .idle ∧ t.responses = s.responses) := by
    intro hp c i rest hin hd
    obtain ⟨hcodec, htrans⟩ := exec_responds ((step_command hp hin hd).symm.trans hstep)
    exact ⟨hcodec, fun hi => (htrans hi).imp_left waits_of_waitingOp⟩
  rcases responses_of_step hstep hr with ⟨hresp, hph⟩ | ⟨r, hresp, hidle, hwhy⟩
  · exact ⟨.inl hresp, fun hwait hidle => absurd (hph.elim (fun h => h.symm.trans hidle) id) hwait, fun _ _ => hresp,
      haccept, fun _ _ => hresp⟩
  · refine ⟨.inr ⟨r, hresp, hidle⟩, fun hwait _ => ⟨r, hresp, ?_⟩, fun _ hwaits => absurd hidle hwaits, haccept,
      fun hp hnone => ?_⟩
    · exact op_by_phase (hwhy.resolve_right fun h => hwait h.1)
    · rcases hwhy with hw | ⟨_, c, rest, hin⟩
      · exact absurd hp (waits_of_waitingOp hw)
      · exact absurd hin (hnone c rest)

/-! ### A coherent machine goes on -/

/-- A coherent core that holds an answer waits. -/
theorem waits_of_coherent_answered {s : State} {r : BusResp} (hc : coherent s = true) (hb : s.bus = .answered r) :
    s.phase ≠ .idle := by
  intro hp
  rw [(coherent_quiet_iff hc).2 hp] at hb
  cases hb

/-- R105: a coherent core that holds an answer completes with one response of the operation that waited. -/
theorem step_completes {s : State} {r : BusResp} (hc : coherent s = true) (hb : s.bus = .answered r)
    (hu : undisturbed s = true) :
    ∃ t r', step s = .next t ∧ t.responses = s.responses ++ [r'] ∧ waitingOp s.phase = some r'.op ∧ t.phase = .idle ∧
      t.bus = .quiet ∧ t.inputs = afterPass s.inputs := by
  obtain ⟨t, ht⟩ := complete_of_coherent hc hb (afterPass s.inputs)
  obtain ⟨r', hresp, hw, hidle, hquiet, hin⟩ := complete_responds ht
  exact ⟨t, r', (step_answered (waits_of_coherent_answered hc hb) hb hu).trans ht, hresp, hw, hidle, hquiet, hin⟩

/-- Settles O25: the waiting core's transaction goes on by the transport's step or by the complete step, and neither
takes the command. -/
theorem commandsWaitWhileTheCoreWaits : Obligations.CommandsWaitWhileTheCoreWaits := by
  refine ⟨fun s i hp => exec_busy hp i, fun s c rest hc hp hin => ?_⟩
  cases hb : s.bus with
  | quiet => exact absurd ((coherent_quiet_iff hc).1 hb) hp
  | serving q =>
    have hs : silent s = true := by rw [silent, hin]; rfl
    obtain ⟨t, r, hstep, hr, hph, _, hresp, hti⟩ := silentTransportAnswers s q hc hb hs
    exact ⟨t, hstep, hti, .inl ⟨r, hph, hr, hresp⟩⟩
  | answered r =>
    have hu : undisturbed s = true := by rw [undisturbed, hin]
    obtain ⟨t, r', hstep, hresp, _, hidle, hquiet, hti⟩ := step_completes hc hb hu
    exact ⟨t, hstep, by rw [hti, hin]; rfl, .inr ⟨r', hidle, hquiet, hresp⟩⟩

/-- A reset or a step of the peripheral comes first in every state. -/
theorem exists_step_of_disturbed {s : State} (hu : undisturbed s = false) : ∃ t, step s = .next t := by
  obtain ⟨ph, bf, pr, bs, rs, is, n⟩ := s
  match is, hu with
  | .reset :: _, _ => exact ⟨_, rfl⟩
  | .periphStep _ :: _, _ => exact ⟨_, rfl⟩

/-- A `pass` is used up and does nothing else where the core holds no answer. -/
theorem step_pass {s : State} {rest : List Input} (hb : ∀ r, s.bus ≠ .answered r) (hin : s.inputs = .pass :: rest) :
    step s = .next (s.withInputs rest) := by
  simp only [step, nextMove, hin, passMove, State.withInputs_bus]
  split
  next r hr => exact absurd hr (hb r)
  all_goals rfl

/-- R115: with nothing outstanding and no inputs left the state stays. -/
theorem step_quiet_nil {s : State} (hb : s.bus = .quiet) (hin : s.inputs = []) : step s = .next s := by
  simp only [step, nextMove, hin, ownMove, hb]

/-- R104: every command's meaning goes through in phase IDLE. -/
theorem exists_exec_idle {s : State} (hp : s.phase = .idle) (i : Instr) : ∃ t, exec i s = .next t := by
  cases hi : i.op.isTransaction with
  | false =>
    obtain ⟨p, hexec⟩ := exec_codec hi hp
    exact ⟨_, hexec⟩
  | true => obtain ⟨_, hexec⟩ | ⟨_, hexec⟩ | ⟨_, _, _, hexec⟩ := exec_transaction hi hp <;> exact ⟨_, hexec⟩

/-- R104, R71: an idle core has a step unless a reserved word or an answer comes next. -/
theorem exists_step_of_idle {s : State} (hp : s.phase = .idle) (hb : s.bus = .quiet) (hf : followable s = true) :
    ∃ t, step s = .next t := by
  cases hin : s.inputs with
  | nil => exact ⟨s, step_quiet_nil hb hin⟩
  | cons x rest =>
    cases x with
    | command c =>
      cases hd : decode c with
      | error why => simp [followable, hin, hp, hd] at hf
      | ok i =>
        rw [step_command hp hin hd]
        exact exists_exec_idle (s := s.withInputs rest) hp i
    | answer a => simp [followable, hin, hp] at hf
    | periphStep p => exact exists_step_of_disturbed (by rw [undisturbed, hin])
    | reset => exact exists_step_of_disturbed (by rw [undisturbed, hin])
    | pass => exact ⟨_, step_pass (by rw [hb]; exact nofun) hin⟩

/-- R58: a coherent machine with a request outstanding has a step whatever comes next. -/
theorem exists_step_of_serving {s : State} {q : BusReq} (hc : coherent s = true) (hb : s.bus = .serving q) :
    ∃ t, step s = .next t := by
  have hsilent (hs : silent s = true) : ∃ t, step s = .next t := by
    obtain ⟨t, _, hstep, _⟩ := silentTransportAnswers s q hc hb hs
    exact ⟨t, hstep⟩
  cases hin : s.inputs with
  | nil => exact hsilent (by rw [silent, hin]; rfl)
  | cons x rest =>
    cases x with
    | command c => exact hsilent (by rw [silent, hin]; rfl)
    | answer a =>
      rw [step_serving_answer hb hin]
      exact serve_of_described (described_of_coherent hc hb) a _
    | periphStep p => exact exists_step_of_disturbed (by rw [undisturbed, hin])
    | reset => exact exists_step_of_disturbed (by rw [undisturbed, hin])
    | pass => exact ⟨_, step_pass (by rw [hb]; exact nofun) hin⟩

/-- Settles O35, by what is outstanding: nothing, and the core is idle; a request, which is served; an answer, which
completes. -/
theorem coherentMachineNeverStops : Obligations.CoherentMachineNeverStops := by
  intro s hc hf
  cases hb : s.bus with
  | quiet => exact exists_step_of_idle ((coherent_quiet_iff hc).1 hb) hb hf
  | serving q => exact exists_step_of_serving hc hb
  | answered r =>
    cases hu : undisturbed s with
    | false => exact exists_step_of_disturbed hu
    | true =>
      obtain ⟨t, _, hstep, _⟩ := step_completes hc hb hu
      exact ⟨t, hstep⟩

/-! ### A core with no inputs left -/

/-- R115: with nothing outstanding and no inputs left the state stays, however many steps pass. -/
theorem runSteps_quiet_nil {s : State} (hb : s.bus = .quiet) (hin : s.inputs = []) (k : Nat) :
    runSteps k s = .next s := by
  induction k with
  | zero => rfl
  | succ k ih => rw [runSteps_succ (step_quiet_nil hb hin), ih]

/-- R105: a coherent core that holds an answer completes in its next step if no inputs are left. -/
theorem step_completes_nil {s : State} {r : BusResp} (hc : coherent s = true) (hb : s.bus = .answered r)
    (hin : s.inputs = []) :
    ∃ t r', step s = .next t ∧ t.responses = s.responses ++ [r'] ∧ waitingOp s.phase = some r'.op ∧ t.phase = .idle ∧
      t.bus = .quiet ∧ t.inputs = [] := by
  have hcompletes := step_completes hc hb (by rw [undisturbed, hin])
  rwa [hin] at hcompletes

/-- Settles O36: the transport answers if it has not yet, the core completes, and an idle core stays. -/
theorem waitingEndsInTwoSteps : Obligations.WaitingEndsInTwoSteps := by
  intro s hc hp hin
  cases hb : s.bus with
  | quiet => exact absurd ((coherent_quiet_iff hc).1 hb) hp
  | serving q =>
    obtain ⟨u, r, hserve, hr, hph, _, hresp, hui⟩ := silentTransportAnswers s q hc hb (by rw [silent, hin]; rfl)
    obtain ⟨t, r', hstep, hresp', hw, hidle, hquiet, _⟩ :=
      step_completes_nil (everyStepKeepsCoherence s u hc hserve) hr (hui.trans hin)
    rw [hresp] at hresp'
    rw [hph] at hw
    exact ⟨t, r', (runSteps_succ hserve).trans (runSteps_succ hstep), hidle, hquiet, hresp', op_by_phase hw⟩
  | answered r =>
    obtain ⟨t, r', hstep, hresp, hw, hidle, hquiet, hti⟩ := step_completes_nil hc hb hin
    exact ⟨t, r', (runSteps_succ hstep).trans (runSteps_quiet_nil hquiet hti 1), hidle, hquiet, hresp, op_by_phase hw⟩

/-! ### A run that is over -/

/-- R106: what it is for a run to be over. -/
theorem runOver_iff {s : State} :
    runOver s = true ↔ s.phase = .idle ∧ s.bus = .quiet ∧ ∀ x ∈ s.inputs, isCommand x = false := by
  simp [runOver, and_assoc]

/-- R106: a run that is over stays over when the core stays idle and inputs are used up. -/
theorem runOver_of_inputs_used {s t : State} {x : Input} (h : runOver s = true) (hp : t.phase = .idle)
    (hb : t.bus = .quiet) (hin : s.inputs = x :: t.inputs) : runOver t = true := by
  obtain ⟨_, _, hnone⟩ := runOver_iff.1 h
  rw [hin] at hnone
  exact runOver_iff.2 ⟨hp, hb, fun y hy => hnone y (List.mem_cons_of_mem x hy)⟩

/-- R106, R115: after a run is over only waiting, a pause, a step of the peripheral and a reset are left to happen. -/
theorem runOver_step {s t : State} (h : runOver s = true) (hstep : step s = .next t) :
    runOver t = true ∧ ((∀ rest, s.inputs ≠ .reset :: rest) → t.responses = s.responses ∧ t.buf = s.buf) := by
  obtain ⟨hp, hb, hnone⟩ := runOver_iff.1 h
  cases step_next hstep with
  | wait _ hs ht => rw [ht]; exact ⟨h, fun _ => ⟨rfl, rfl⟩⟩
  | pass rest hin ht => rw [ht]; exact ⟨runOver_of_inputs_used h hp hb hin, fun _ => ⟨rfl, rfl⟩⟩
  | peripheral p rest hin ht => rw [ht]; exact ⟨runOver_of_inputs_used h hp hb hin, fun _ => ⟨rfl, rfl⟩⟩
  | reset rest hin ht => rw [ht]; exact ⟨runOver_of_inputs_used h rfl rfl hin, fun hr => absurd hin (hr rest)⟩
  | accept c i rest _ hin hd ht =>
    have hcommand := hnone (.command c) (by rw [hin]; exact List.mem_cons_self)
    cases hcommand
  | answer q a rest hserving hin ht => rw [hb] at hserving; cases hserving
  | free q hserving hs ht => rw [hb] at hserving; cases hserving
  | complete r hanswered hu ht => rw [hb] at hanswered; cases hanswered

/-- Settles O39: `runOver_step`, of which the peripheral's step is one case, and with no inputs left not even that. -/
theorem idleCoreWaits : Obligations.IdleCoreWaits := by
  refine ⟨fun s t h hstep => runOver_step h hstep, fun s p rest h hin => ?_, fun s h hin k => ?_⟩
  · have hstep := peripheralStepChangesOnlyTheRegisters s p rest hin
    exact ⟨_, hstep, (runOver_step h hstep).1, rfl, rfl⟩
  · obtain ⟨_, hb, _⟩ := runOver_iff.1 h
    exact runSteps_quiet_nil hb hin k

end Sys2Proof
end

section
/-! SUPPORT. Every run of commands ends: a measure that each step of an open run lessens, and the operations still to be
answered, from which each response takes the first. -/

namespace Sys2Proof

open Sys2Proof.Machine

/-- How many steps of the core and the transport the outstanding transaction still takes. -/
def busSteps : BusState → Nat
  | .quiet => 0
  | .serving _ => 2
  | .answered _ => 1

/-- How many steps a run takes at most: its inputs' and the outstanding transaction's. -/
def stepsLeft (s : State) : Nat := runLength s.inputs + busSteps s.bus

/-- The operations whose responses are still to come: the one that waits, then those of the commands. -/
def opsToCome (s : State) : List Op := (waitingOp s.phase).toList ++ commandOps s.inputs

/-- A run of R106 in the making: nothing of the environment is named but steps of the peripheral and pauses. -/
def openRun (s : State) : Prop := coherent s = true ∧ openInputs s.inputs = true

/-- One step of an open run: it stays open and gets shorter, and a response sent is to the first operation to come. -/
def RunsOn (s t : State) : Prop :=
  step s = .next t ∧ openInputs t.inputs = true ∧ stepsLeft t < stepsLeft s ∧
    ∃ rs, t.responses = s.responses ++ rs ∧ rs.map (·.op) ++ opsToCome t = opsToCome s

/-- No transaction takes more than two steps after its issue. -/
theorem busSteps_le (b : BusState) : busSteps b ≤ 2 := by
  cases b with
  | quiet => exact Nat.zero_le 2
  | serving q => exact Nat.le_refl 2
  | answered r => exact Nat.le_succ 1

/-- A command's meaning leaves the inputs to come. -/
theorem exec_inputs {i : Instr} {s t : State} (h : exec i s = .next t) : t.inputs = s.inputs := by
  obtain ⟨_, ⟨_, p, rfl⟩ | ⟨_, rfl⟩ | ⟨_, rfl⟩ | ⟨r, m, _, rfl⟩⟩ := exec_next h <;> rfl

/-- An input of an open run that is no command: a step of the peripheral, or a pause. -/
def isPause : Input → Bool
  | .periphStep _ | .pass => true
  | .command _ | .answer _ | .reset => false

/-- A pause has no operation and counts as one step. -/
theorem pause_cons {x : Input} (hx : isPause x = true) (is : List Input) :
    openInputs (x :: is) = openInputs is ∧ runLength (x :: is) = runLength is + 1 ∧
      commandOps (x :: is) = commandOps is := by
  cases x with
  | periphStep p | pass => exact ⟨rfl, rfl, rfl⟩
  | command c | answer a | reset => cases hx

/-- An open run's next input is a command that decodes, or a pause. -/
theorem openInputs_cons {x : Input} {is : List Input} (h : openInputs (x :: is) = true) :
    openInputs is = true ∧ ((∃ c i, x = .command c ∧ decode c = .ok i) ∨ isPause x = true) := by
  cases x with
  | command c =>
    cases hd : decode c with
    | error why => simp [openInputs, hd] at h
    | ok i => exact ⟨by simpa [openInputs, hd] using h, .inl ⟨c, i, rfl, hd⟩⟩
  | periphStep p | pass => exact ⟨h, .inr rfl⟩
  | answer a | reset => cases h

/-- A pause that uses itself up only. -/
theorem runsOn_of_pause {s t : State} {x : Input} (ho : openInputs s.inputs = true) (hx : isPause x = true)
    (hin : s.inputs = x :: t.inputs) (hstep : step s = .next t) (hp : t.phase = s.phase) (hb : t.bus = s.bus)
    (hresp : t.responses = s.responses) : RunsOn s t := by
  obtain ⟨hopen, hlength, hops⟩ := pause_cons hx t.inputs
  rw [hin, hopen] at ho
  refine ⟨hstep, ho, ?_, [], by rw [hresp, List.append_nil], ?_⟩
  · rw [stepsLeft, stepsLeft, hin, hlength, hb]
    omega
  · rw [opsToCome, opsToCome, hin, hops, hp]
    rfl

/-- R56(f): a step of the peripheral is a pause in every state. -/
theorem runsOn_periphStep {s : State} {p : Regs} {rest : List Input} (ho : openInputs s.inputs = true)
    (hin : s.inputs = .periphStep p :: rest) : ∃ t, RunsOn s t :=
  ⟨_, runsOn_of_pause ho (x := .periphStep p) rfl hin (peripheralStepChangesOnlyTheRegisters s p rest hin) rfl rfl rfl⟩

/-- A pause is used up where the core holds no answer. -/
theorem runsOn_pause {s : State} {x : Input} {rest : List Input} (hb : ∀ r, s.bus ≠ .answered r)
    (ho : openInputs s.inputs = true) (hin : s.inputs = x :: rest) (hx : isPause x = true) : ∃ t, RunsOn s t := by
  cases x with
  | periphStep p => exact runsOn_periphStep ho hin
  | pass => exact ⟨_, runsOn_of_pause ho (x := .pass) rfl hin (step_pass hb hin) rfl rfl rfl⟩
  | command c | answer a | reset => cases hx

/-- R104: an accepted codec command has its response at once; an accepted transaction's is the first to come. -/
theorem runsOn_accept {s : State} {c : Command} {i : Instr} {rest : List Input} (hp : s.phase = .idle)
    (hin : s.inputs = .command c :: rest) (hd : decode c = .ok i) (ho : openInputs rest = true) : ∃ t, RunsOn s t := by
  obtain ⟨t, ht⟩ := exists_exec_idle (s := s.withInputs rest) hp i
  have hti : t.inputs = rest := exec_inputs ht
  have hops : opsToCome s = i.op :: commandOps rest := by
    rw [opsToCome, hp, hin, commandOps, hd]
    rfl
  refine ⟨t, (step_command hp hin hd).trans ht, by rw [hti, ho], ?_, ?_⟩
  · have hbus := busSteps_le t.bus
    rw [stepsLeft, stepsLeft, hti, hin, runLength]
    omega
  · obtain ⟨hcodec, htrans⟩ := exec_responds ht
    cases hi : i.op.isTransaction with
    | false =>
      obtain ⟨hidle, r, hresp, hop⟩ := hcodec hi
      refine ⟨[r], hresp, ?_⟩
      rw [hops, opsToCome, hidle, hti, ← hop]
      rfl
    | true =>
      obtain ⟨hw, hresp⟩ := htrans hi
      refine ⟨[], by rw [hresp, List.append_nil]; rfl, ?_⟩
      rw [hops, opsToCome, hw, hti]
      rfl

/-- R58: the transport answers where the inputs name no pause. -/
theorem runsOn_serving {s : State} {q : BusReq} (h : openRun s) (hb : s.bus = .serving q) (hs : silent s = true) :
    ∃ t, RunsOn s t := by
  obtain ⟨hc, ho⟩ := h
  obtain ⟨t, r, hstep, hr, hp, _, hresp, hin⟩ := silentTransportAnswers s q hc hb hs
  refine ⟨t, hstep, by rw [hin, ho], ?_, [], by rw [hresp, List.append_nil], ?_⟩
  · rw [stepsLeft, stepsLeft, hin, hr, hb, busSteps, busSteps]
    omega
  · rw [opsToCome, opsToCome, hin, hp]
    rfl

/-- The core's own step uses up a pause at most. -/
theorem afterPass_keeps_open (is : List Input) :
    openInputs (afterPass is) = openInputs is ∧ runLength (afterPass is) ≤ runLength is ∧
      commandOps (afterPass is) = commandOps is := by
  unfold afterPass
  split
  · exact ⟨rfl, Nat.le_succ _, rfl⟩
  · exact ⟨rfl, Nat.le_refl _, rfl⟩

/-- R105: the core completes, with the response of the operation that waited. -/
theorem runsOn_completes {s : State} {r : BusResp} (h : openRun s) (hb : s.bus = .answered r)
    (hu : undisturbed s = true) : ∃ t, RunsOn s t := by
  obtain ⟨hc, ho⟩ := h
  obtain ⟨t, r', hstep, hresp, hw, hidle, hquiet, hin⟩ := step_completes hc hb hu
  obtain ⟨hopen, hlength, hops⟩ := afterPass_keeps_open s.inputs
  refine ⟨t, hstep, by rw [hin, hopen, ho], ?_, [r'], hresp, ?_⟩
  · rw [stepsLeft, stepsLeft, hin, hquiet, hb, busSteps, busSteps]
    omega
  · rw [opsToCome, opsToCome, hin, hops, hidle, hw]
    rfl

/-- The only disturbance of an open run is a step of the peripheral. -/
theorem periphStep_of_disturbed {s : State} (ho : openInputs s.inputs = true) (hu : undisturbed s = false) :
    ∃ p rest, s.inputs = .periphStep p :: rest := by
  unfold undisturbed at hu
  split at hu
  next rest hin => rw [hin] at ho; cases ho
  next p rest hin => exact ⟨p, rest, hin⟩
  next => cases hu

/-- R106: an open run goes on until the core is idle with no inputs left. -/
theorem exists_runsOn {s : State} (h : openRun s) (hleft : ¬ (s.inputs = [] ∧ s.phase = .idle)) : ∃ t, RunsOn s t := by
  obtain ⟨hc, ho⟩ := h
  cases hb : s.bus with
  | quiet =>
    have hp := (coherent_quiet_iff hc).1 hb
    cases hin : s.inputs with
    | nil => exact absurd ⟨hin, hp⟩ hleft
    | cons x rest =>
      obtain ⟨hopen, ⟨c, i, rfl, hd⟩ | hx⟩ := openInputs_cons (hin ▸ ho)
      · exact runsOn_accept hp hin hd hopen
      · exact runsOn_pause (by rw [hb]; exact nofun) ho hin hx
  | serving q =>
    cases hin : s.inputs with
    | nil => exact runsOn_serving ⟨hc, ho⟩ hb (by rw [silent, hin]; rfl)
    | cons x rest =>
      obtain ⟨_, ⟨c, i, rfl, _⟩ | hx⟩ := openInputs_cons (hin ▸ ho)
      · exact runsOn_serving ⟨hc, ho⟩ hb (by rw [silent, hin]; rfl)
      · exact runsOn_pause (by rw [hb]; exact nofun) ho hin hx
  | answered r =>
    cases hu : undisturbed s with
    | false =>
      obtain ⟨p, rest, hin⟩ := periphStep_of_disturbed ho hu
      exact runsOn_periphStep ho hin
    | true => exact runsOn_completes ⟨hc, ho⟩ hb hu

/-- R106: a run that ends from `s` in at most `n` steps, with one response to each of the operations `ops`, in order. -/
def EndsWithin (n : Nat) (ops : List Op) (s : State) : Prop :=
  ∃ k t rs, k ≤ n ∧ runSteps k s = .next t ∧ runOver t = true ∧ t.inputs = [] ∧
    t.responses = s.responses ++ rs ∧ rs.map (·.op) = ops

/-- A step of an open run before a run that ends. -/
theorem endsWithin_of_runsOn {s t : State} (h : RunsOn s t) (ht : EndsWithin (stepsLeft t) (opsToCome t) t) :
    EndsWithin (stepsLeft s) (opsToCome s) s := by
  obtain ⟨hstep, _, hless, rs, hresp, hops⟩ := h
  obtain ⟨k, u, rs', hk, hrun, hover, hin, hresp', hops'⟩ := ht
  refine ⟨k + 1, u, rs ++ rs', by omega, (runSteps_succ hstep).trans hrun, hover, hin, ?_, ?_⟩
  · rw [hresp', hresp, List.append_assoc]
  · rw [List.map_append, hops', hops]

/-- R106: every open run ends, by induction on the steps left. -/
theorem openRun_ends (s : State) (h : openRun s) : EndsWithin (stepsLeft s) (opsToCome s) s := by
  obtain ⟨hc, ho⟩ := h
  by_cases hdone : s.inputs = [] ∧ s.phase = .idle
  · obtain ⟨hin, hp⟩ := hdone
    have hover : runOver s = true := runOver_iff.2 ⟨hp, (coherent_quiet_iff hc).2 hp, by rw [hin]; exact nofun⟩
    exact ⟨0, s, [], Nat.zero_le _, rfl, hover, hin, (List.append_nil _).symm, by rw [opsToCome, hin, hp]; rfl⟩
  · obtain ⟨t, hstep, hopen, hless, hresp⟩ := exists_runsOn ⟨hc, ho⟩ hdone
    have hct := everyStepKeepsCoherence s t hc hstep
    exact endsWithin_of_runsOn ⟨hstep, hopen, hless, hresp⟩ (openRun_ends t ⟨hct, hopen⟩)
termination_by stepsLeft s

/-- R106: a run that starts in phase IDLE with nothing outstanding ends within its length, its commands answered. -/
theorem idle_run_ends {s : State} (hp : s.phase = .idle) (hb : s.bus = .quiet) (ho : openInputs s.inputs = true) :
    EndsWithin (runLength s.inputs) (commandOps s.inputs) s := by
  have hends := openRun_ends s ⟨coherent_of_idle_quiet hp hb, ho⟩
  rwa [stepsLeft, hb, opsToCome, hp] at hends

/-- R106: a list of commands is an open run, three steps for each. -/
theorem commandRun_is_open (is : List Instr) :
    openInputs (commandRun is) = true ∧ runLength (commandRun is) = 3 * is.length ∧
      commandOps (commandRun is) = is.map (·.op) := by
  induction is with
  | nil => exact ⟨rfl, rfl, rfl⟩
  | cons i is ih =>
    obtain ⟨hopen, hlength, hops⟩ := ih
    have hd := decodeOfEncodeIsTheCommand i
    have hcons : commandRun (i :: is) = .command (encode i) :: commandRun is := rfl
    refine ⟨?_, ?_, ?_⟩
    · rw [hcons, openInputs, hd, hopen]
      rfl
    · rw [hcons, runLength, hlength, List.length_cons]
      omega
    · rw [hcons, commandOps, hd, hops]
      rfl

/-- Settles O37: open runs end; a list of commands alone is one. -/
theorem everyRunOfCommandsEnds : Obligations.EveryRunOfCommandsEnds := by
  refine ⟨fun s hp hb ho => idle_run_ends hp hb ho, fun is s hp hb hin => ?_⟩
  obtain ⟨hopen, hlength, hops⟩ := commandRun_is_open is
  have hends := idle_run_ends hp hb (by rw [hin, hopen])
  rwa [hin, hlength, hops] at hends

end Sys2Proof
end

section
/-! SUPPORT. The one exception: which steps send a response, and whose failure it reports. -/

namespace Sys2Proof

open Sys2Proof.Machine

/-- R44, R100: the operation that waits is a transaction command's. -/
theorem isTransaction_of_waitingOp {ph : Phase} {op : Op} (h : waitingOp ph = some op) : op.isTransaction = true := by
  cases ph <;> cases h <;> rfl

/-- A step that sends a response does not leave the response channel as it was. -/
theorem responses_ne_of_append {s t : State} {r : Response} (hr : t.responses = s.responses ++ [r]) :
    t.responses ≠ s.responses :=
  fun hkept => List.cons_ne_nil r [] (List.self_eq_append_right.1 (hkept.symm.trans hr))

/-- R84, R92: a response sent at once on accepting a command has status OK. -/
theorem exec_status_ok {i : Instr} {s t : State} {r : Response} (h : exec i s = .next t)
    (hr : t.responses = s.responses ++ [r]) : r.status = .ok := by
  obtain ⟨_, ⟨_, p, rfl⟩ | ⟨_, rfl⟩ | ⟨_, rfl⟩ | ⟨_, _, _, rfl⟩⟩ := exec_next h
  · obtain rfl := List.singleton_injective (List.append_cancel_left hr)
    rfl
  · exact absurd rfl (responses_ne_of_append hr)
  · exact absurd rfl (responses_ne_of_append hr)
  · exact absurd rfl (responses_ne_of_append hr)

/-- R105, R111: the complete step's response is of the operation that waited, and fails as the transport's answer did. -/
theorem complete_status {b : BusResp} {s t : State} {r : Response} (h : complete b s = .next t)
    (hr : t.responses = s.responses ++ [r]) :
    waitingOp s.phase = some r.op ∧ ∀ e, r.status = .fail e ↔ b = .fail e := by
  obtain ⟨op, st, p, hw, rfl, hst⟩ := complete_next h
  obtain rfl := List.singleton_injective (List.append_cancel_left hr)
  refine ⟨hw, fun e => ?_⟩
  change st = .fail e ↔ b = .fail e
  rcases hst with ⟨e', rfl, rfl⟩ | ⟨d, rfl, rfl⟩
  · rw [Status.fail.injEq, BusResp.fail.injEq]
  · exact iff_of_false nofun nofun

/-- R110, R114: a step that sends a response accepts a command and reports OK, or completes the transaction outstanding and
reports the transport's answer. -/
theorem sender_of_response {s t : State} {r : Response} (h : step s = .next t)
    (hr : t.responses = s.responses ++ [r]) :
    (s.phase = .idle ∧ r.status = .ok) ∨
    ∃ b, s.bus = .answered b ∧ waitingOp s.phase = some r.op ∧ t.phase = .idle ∧ t.bus = .quiet ∧
      ∀ e, r.status = .fail e ↔ b = .fail e := by
  cases step_next h with
  | wait hb hs ht => exact absurd (by rw [ht]) (responses_ne_of_append hr)
  | pass rest hin ht => exact absurd (by rw [ht]; rfl) (responses_ne_of_append hr)
  | peripheral p rest hin ht => exact absurd (by rw [ht]; rfl) (responses_ne_of_append hr)
  | reset rest hin ht =>
    have hempty : t.responses = [] := by rw [ht]; rfl
    exact absurd (hr.symm.trans hempty) (List.append_ne_nil_of_right_ne_nil _ (List.cons_ne_nil r []))
  | accept c i rest hp hin hd ht => exact .inl ⟨hp, exec_status_ok ht hr⟩
  | answer q a rest hb hin ht =>
    have hkept := serve_responses ht
    exact absurd hkept (responses_ne_of_append hr)
  | free q hb hs ht =>
    have hkept := serve_responses ht
    exact absurd hkept (responses_ne_of_append hr)
  | complete b hb hu ht =>
    obtain ⟨hw, hst⟩ := complete_status ht hr
    obtain ⟨hidle, hquiet⟩ := complete_idle_quiet ht
    exact .inr ⟨b, hb, hw, hidle, hquiet, hst⟩

/-- Settles O31, by the sender: an accepting core is idle, so no answer is outstanding and its response is OK; a completing
one reports its answer, and ends idle and quiet. -/
theorem failuresAreTheTransportsOwn : Obligations.FailuresAreTheTransportsOwn := by
  intro s t r e hc hstep hr
  rcases sender_of_response hstep hr with ⟨hp, hok⟩ | ⟨b, hb, hw, hidle, hquiet, hst⟩
  · have hsent : r.status ≠ .fail e := by rw [hok]; exact nofun
    have hanswer : s.bus ≠ .answered (.fail e) := fun hb => waits_of_coherent_answered hc hb hp
    exact ⟨iff_of_false hsent hanswer, fun hfail => absurd hfail hsent⟩
  · refine ⟨?_, fun _ => ⟨isTransaction_of_waitingOp hw, hidle, hquiet⟩⟩
    rw [hb, hst e, BusState.answered.injEq]

end Sys2Proof
end

section
/-! SUPPORT. Reset and hazards: a reset at any moment, the oscillator flag and the clock mode under a read-modify-write,
and the bytes of out-of-range operands. -/

namespace Sys2Proof

open Sys2Proof.Machine

/-! ### Reset -/

/-- R130: a reset is used up by the machine's move whatever the agents wait for. -/
theorem step_reset {s : State} {rest : List Input} (hin : s.inputs = .reset :: rest) :
    step s = .next (coreReset (s.withInputs rest)) := by
  simp only [step, nextMove, hin]

/-- Settles O38: the state after the step is the reset's, idle and quiet whatever stood before. -/
theorem resetAtAnyMoment : Obligations.ResetAtAnyMoment := fun s rest hin =>
  ⟨_, step_reset hin, rfl, rfl, rfl, rfl, coherent_of_idle_quiet rfl rfl,
    fun hp => coreReset_periph_of_ne (s := s.withInputs rest) hp⟩

/-! ### The fields of a digit pair -/

/-- R90: the low nibble is the ones digit, cut or not. -/
theorem ones_digitPair (v : Dec) : bits (digitPair v) 0 4 = v.toNat % 10 := by
  rw [bits, digitPair, BitVec.toNat_ofNat]
  omega

/-- R90: up to 159 the high nibble is the number of tens. -/
theorem tens_digitPair {v : Dec} (hv : v.toNat ≤ 159) : bits (digitPair v) 4 4 = v.toNat / 10 := by
  rw [bits, digitPair_toNat hv]
  omega

/-- R80, R90: the tens a seconds byte keeps below its flag. -/
theorem tensBelowBit7_digitPair {v : Dec} (hv : v.toNat ≤ 159) : bits (digitPair v) 4 3 = v.toNat / 10 % 8 := by
  rw [bits, digitPair_toNat hv]
  omega

/-- R90: bit 7 is the eight of the tens. -/
theorem bit7_digitPair {v : Dec} (hv : v.toNat ≤ 159) : (digitPair v).getLsbD 7 = decide (80 ≤ v.toNat) := by
  have htens := tens_digitPair hv
  rw [bits_succ, tensBelowBit7_digitPair hv] at htens
  cases hbit : (digitPair v).getLsbD 7 with
  | false =>
    rw [hbit, Bool.toNat_false] at htens
    exact (decide_eq_false (by omega)).symm
  | true =>
    rw [hbit, Bool.toNat_true] at htens
    exact (decide_eq_true (by omega)).symm

/-- R133, D11: from 160 up the tens lose their bit of weight 16. -/
theorem digitPair_toNat_cut {v : Dec} (hv : 160 ≤ v.toNat) :
    (digitPair v).toNat = 16 * (v.toNat / 10 - 16) + v.toNat % 10 := by
  have hlt := v.isLt
  rw [digitPair, BitVec.toNat_ofNat]
  omega

/-! ### Hazards -/

/-- R103: the seconds byte of the packed buffer. -/
theorem packBuffer_seconds (r : Rec) (m : Mer) : (packBuffer r m).seconds = digitPair r.seconds := encDp_eq _

/-- R103: the hours byte of the packed buffer. -/
theorem packBuffer_hours (r : Rec) (m : Mer) : (packBuffer r m).hours = encHrs r.hours m := rfl

/-- R137: `WRT` writes the oscillator flag from the seconds value alone. -/
theorem oscillatorFlag_packBuffer {r : Rec} (hr : r.seconds.toNat ≤ 159) (m : Mer) :
    (packBuffer r m).seconds.getLsbD 7 = decide (80 ≤ r.seconds.toNat) := by
  rw [packBuffer_seconds, bit7_digitPair hr]

/-- Settles O42: the flag tells whether the seconds value is 80 or more, and a record read has the seconds byte's
value. -/
theorem wrtAlwaysWritesTheOscillatorFlag : Obligations.WrtAlwaysWritesTheOscillatorFlag := by
  have hclear (r : Rec) (m : Mer) (hr : r.seconds.toNat < 80) : (packBuffer r m).seconds.getLsbD 7 = false :=
    (oscillatorFlag_packBuffer (by omega) m).trans (decide_eq_false (by omega))
  refine ⟨hclear, fun r m hlo hhi => (oscillatorFlag_packBuffer hhi m).trans (decide_eq_true hlo), fun d m hd => ?_⟩
  exact hclear _ m (by rwa [← decSec_toNat] at hd)

/-- R94: no contracted hour is above 23. -/
theorem hour_le_of_legalHour {h : Dec} {m : Mer} (hl : legalHour h m = true) : h.toNat ≤ 23 := by
  cases m with
  | am | pm => exact (of_decide_eq_true hl).2.trans (by decide)
  | h24 => exact of_decide_eq_true hl

/-- R136: an hour contracted with some meridian, written with any, shows the meridian it is written with. -/
theorem decMer_encHrs_of_legalHour {h : Dec} {m : Mer} (hl : legalHour h m = true) (m' : Mer) :
    decMer (encHrs h m') = m' := by
  by_cases hm' : m' = .h24
  · have hle := hour_le_of_legalHour hl
    rw [hm', decMer_encHrs_h24 (by omega)]
  · exact decMer_encHrs hm' h

section ReadModifyWrite

variable {r d : Rec} {m : Mer} (hl : legalHour r.hours m = true) (hd : d.hours = (packBuffer r m).hours)
include hl hd

/-- R136: a contracted hour that was packed, read and packed again with some meridian is the hour with that meridian. -/
theorem rewritten_hours (m' : Mer) : (packBuffer (decodeBlock d) m').hours = encHrs r.hours m' := by
  obtain ⟨hhour, _⟩ := hours_read_back (exactHour_of_legalHour hl)
  rw [packBuffer_hours, decodeBlock, hd, packBuffer_hours, hhour]

/-- R136: what `RDM` reads is the meridian written. -/
theorem decMer_packed : decMer d.hours = m := by
  rw [hd, packBuffer_hours, decMer_encHrs_of_legalHour hl]

/-- R136: the mode and meridian after a read-modify-write are those passed on writing. -/
theorem decMer_rewritten (m' : Mer) : decMer (packBuffer (decodeBlock d) m').hours = m' := by
  rw [rewritten_hours hl hd, decMer_encHrs_of_legalHour hl]

/-- R136: only the meridian that was read keeps the byte, since the byte tells its meridian. -/
theorem rewritten_hours_eq_iff (m' : Mer) : (packBuffer (decodeBlock d) m').hours = d.hours ↔ m' = m := by
  constructor
  · intro hkept
    rw [← decMer_rewritten hl hd m', hkept, decMer_packed hl hd]
  · rintro rfl
    rw [rewritten_hours hl hd, hd, packBuffer_hours]

end ReadModifyWrite

/-- Settles O43: the byte written back shows the meridian passed, so it is the old one exactly for the meridian read. -/
theorem modeIsLostWithoutTheMeridian : Obligations.ModeIsLostWithoutTheMeridian :=
  ⟨fun _ _ _ m' hl hd => ⟨decMer_packed hl hd, decMer_rewritten hl hd m', rewritten_hours_eq_iff hl hd m'⟩,
    fun _ _ _ hl hd => (rewritten_hours_eq_iff hl hd _).2 (decMer_packed hl hd),
    fun _ _ _ _ hl hd => decMer_rewritten hl hd .h24,
    fun _ _ m' hm' hl hd => ne_of_eq_of_ne (decMer_rewritten hl hd m') hm',
    by decide⟩

/-- Settles O44: the mask drops the bit that counts as eight tens and keeps the other fields. -/
theorem genericBitSevenAddsEighty : Obligations.GenericBitSevenAddsEighty := by
  intro b h7
  have hkeep (k : Nat) (hk : k < 7) : (b &&& 0x7F#8).getLsbD k = b.getLsbD k := by
    interval_cases k <;> simp
  have htens : bits (b &&& 0x7F#8) 4 3 = bits b 4 3 := bits_congr fun k hk => hkeep (4 + k) (by omega)
  have hones : bits (b &&& 0x7F#8) 0 4 = bits b 0 4 := bits_congr fun k hk => hkeep (0 + k) (by omega)
  have htop : bits b 4 4 = bits b 4 3 + 8 := by rw [bits_succ, h7]; rfl
  rw [decGen_toNat, decGen_toNat, genericValue_of_bit7 (b := b &&& 0x7F#8) (by simp), htens, hones, genericValue, htop]
  omega

/-! ### R133, the digit pairs -/

section DigitPairRows

variable {v : Dec} {x : Byte} (hx : x = digitPair v)
include hx

/-- R133: seconds and minutes 60 to 79, a tens digit of 6 or 7 below a clear bit 7. -/
theorem pair_from_sixty (hlo : 60 ≤ v.toNat) (hhi : v.toNat ≤ 79) :
    x = digitPair v ∧ 6 ≤ bits x 4 3 ∧ bits x 0 4 = v.toNat % 10 ∧ x.getLsbD 7 = false := by
  subst hx
  have htens := tensBelowBit7_digitPair (v := v) (by omega)
  have hflag := bit7_digitPair (v := v) (by omega)
  exact ⟨rfl, by omega, ones_digitPair v, hflag.trans (decide_eq_false (by omega))⟩

/-- R133: seconds 80 to 159, the flag is set and the value loses 80. -/
theorem seconds_from_eighty (hlo : 80 ≤ v.toNat) (hhi : v.toNat ≤ 159) :
    x = digitPair v ∧ x.getLsbD 7 = true ∧ secondsValue x = v.toNat - 80 := by
  subst hx
  refine ⟨rfl, (bit7_digitPair hhi).trans (decide_eq_true hlo), ?_⟩
  rw [secondsValue, tensBelowBit7_digitPair hhi, ones_digitPair]
  omega

/-- R133: a generic byte of 80 to 159, bit 7 is set and the value reads back. -/
theorem generic_from_eighty (hlo : 80 ≤ v.toNat) (hhi : v.toNat ≤ 159) :
    x = digitPair v ∧ x.getLsbD 7 = true ∧ genericValue x = v.toNat := by
  subst hx
  exact ⟨rfl, (bit7_digitPair hhi).trans (decide_eq_true hlo), genericValue_digitPair hhi⟩

/-- R133: day, date and month up to 79 are well-formed digit pairs, whatever the contracted range. -/
theorem pair_below_eighty (hhi : v.toNat ≤ 79) :
    x = digitPair v ∧ bits x 4 4 = v.toNat / 10 ∧ bits x 0 4 = v.toNat % 10 := by
  subst hx
  exact ⟨rfl, tens_digitPair (by omega), ones_digitPair v⟩

/-- R133: year 100 to 159, the high nibble is no decimal digit and the value reads back. -/
theorem year_from_hundred (hlo : 100 ≤ v.toNat) (hhi : v.toNat ≤ 159) :
    x = digitPair v ∧ 10 ≤ bits x 4 4 ∧ genericValue x = v.toNat := by
  subst hx
  have htens := tens_digitPair hhi
  exact ⟨rfl, by omega, genericValue_digitPair hhi⟩

end DigitPairRows

/-! ### R133, the hours byte -/

/-- R133: H24, 24 to 39 reads back. -/
theorem hours_h24_below_forty {h : Dec} {m : Mer} (hm : m = .h24) (hhi : h.toNat ≤ 39) :
    encHrs h m = digitPair h ∧ hoursValue (encHrs h m) = h.toNat ∧ meridianOf (encHrs h m) = .h24 := by
  subst hm
  refine ⟨encHrs_h24 h, ?_, ?_⟩
  · rw [encHrs_h24, hoursValue_digitPair hhi]
  · rw [← decMer_eq, decMer_encHrs_h24 hhi]

/-- R90, R133: from 40 to 79 the four of the tens stands at bit 6. -/
theorem bit6_digitPair_from_forty {h : Dec} (hlo : 40 ≤ h.toNat) (hhi : h.toNat ≤ 79) : bits (digitPair h) 6 1 = 1 := by
  have hdiv : (digitPair h).toNat / 2 ^ 6 = 1 := by
    rw [digitPair_toNat (by omega)]
    omega
  rw [bits, hdiv, Nat.pow_one, Nat.one_mod]

/-- R133: H24, 40 to 79 is a byte of 12-hour mode, whose hour has at most one ten. -/
theorem hours_h24_from_forty {h : Dec} {m : Mer} (hm : m = .h24) (hlo : 40 ≤ h.toNat) (hhi : h.toNat ≤ 79) :
    encHrs h m = digitPair h ∧ (encHrs h m).getLsbD 6 = true ∧ meridianOf (encHrs h m) ≠ .h24 ∧
      hoursValue (encHrs h m) ≠ h.toNat := by
  subst hm
  have hbit := bit6_digitPair_from_forty hlo hhi
  rw [encHrs_h24]
  refine ⟨rfl, ?_, ?_, ?_⟩
  · rwa [bits_one, Bool.toNat_eq_one] at hbit
  · rw [meridianOf, if_neg (by omega)]
    split <;> exact nofun
  · have hle := hoursValue_le (digitPair h)
    rw [if_pos hbit] at hle
    omega

section TwelveHourRows

variable {h : Dec} {m : Mer} (hm : m ≠ .h24)
include hm

/-- R91, R133: the hour read back keeps one bit of the tens digit. -/
theorem hoursValue_encHrs_mod (hh : h.toNat ≤ 159) :
    hoursValue (encHrs h m) = h.toNat / 10 % 2 * 10 + h.toNat % 10 := by
  rw [hoursValue_encHrs hm, ones_digitPair, bits, digitPair_toNat hh]
  omega

/-- R91: AM and PM read back from the byte whatever the hour. -/
theorem meridianOf_encHrs : meridianOf (encHrs h m) = m := by rw [← decMer_eq, decMer_encHrs hm]

/-- R91, R133: up to 19 the digit pair leaves bits 6 and 5 clear, and the hours byte is the mode bits over it. -/
theorem encHrs_eq_or (hh : h.toNat ≤ 19) :
    encHrs h m = (if m = .pm then 0x60#8 else 0x40#8) ||| digitPair h := by
  have hlt : (digitPair h).toNat < 2 ^ 5 := by
    rw [digitPair_toNat (by omega)]
    omega
  have h5 : (digitPair h)[5] = false := Nat.testBit_lt_two_pow hlt
  cases m with
  | pm => rw [if_pos rfl, encHrs, encDp_eq, BitVec.or_assoc, BitVec.or_comm]; rfl
  | am =>
    have hkeep : digitPair h &&& 0xDF#8 = digitPair h := by
      apply BitVec.eq_of_getLsbD_eq
      intro k hk
      interval_cases k <;> simp [h5]
    rw [if_neg nofun, encHrs, encDp_eq, BitVec.and_or_distrib_right, hkeep, BitVec.or_comm]; rfl
  | h24 => exact absurd rfl hm

/-- R133: AM or PM, 0 and 13 to 19, the mode bits over the digit pair; reads back. -/
theorem hours_twelve_below_twenty (hh : h.toNat ≤ 19) :
    encHrs h m = (if m = .pm then 0x60#8 else 0x40#8) ||| digitPair h ∧
      hoursValue (encHrs h m) = h.toNat ∧ meridianOf (encHrs h m) = m := by
  refine ⟨encHrs_eq_or hm hh, ?_, meridianOf_encHrs hm⟩
  rw [hoursValue_encHrs_mod hm (by omega)]
  omega

/-- R133: AM or PM, 20 to 39, bit 5 is overwritten and the hour loses its 20. -/
theorem hours_twelve_from_twenty (hlo : 20 ≤ h.toNat) (hhi : h.toNat ≤ 39) :
    isHoursByte h m (encHrs h m) ∧ hoursValue (encHrs h m) = h.toNat - 20 ∧ meridianOf (encHrs h m) = m := by
  refine ⟨encHrs_isHoursByte h m, ?_, meridianOf_encHrs hm⟩
  rw [hoursValue_encHrs_mod hm (by omega)]
  omega

end TwelveHourRows

/-- Settles O45, row by row: the buffer of the issue step is the packed record, each of whose bytes is a digit pair
but for hours and control. -/
theorem outOfRangeOperandsPackAsListed : Obligations.OutOfRangeOperandsPackAsListed := by
  intro r m s hp
  obtain ⟨hsec, hmin, hhrs, hday, hdate, hmonth, hyear, hctl⟩ := packBuffer_packsTo r m
  refine ⟨_, packBuffer r m, exec_wrt_idle r m hp, rfl, pair_from_sixty hsec, pair_from_sixty hmin,
    seconds_from_eighty hsec, generic_from_eighty hmin, generic_from_eighty hday, generic_from_eighty hdate,
    generic_from_eighty hmonth, fun hv => pair_below_eighty hday (by omega),
    fun hv => pair_below_eighty hdate (by omega), fun hv => pair_below_eighty hmonth (by omega),
    year_from_hundred hyear,
    fun hm _ hhi => hours_h24_below_forty hm hhi, hours_h24_from_forty,
    fun hm hv => hours_twelve_below_twenty hm (by omega), hours_twelve_from_twenty, fun v x hmem hv => ?_,
    fun hv => ⟨hhrs, digitPair_toNat_cut hv⟩, hctl⟩
  have hpair : x = digitPair v := by
    simp only [List.mem_cons, Prod.mk.injEq, List.not_mem_nil, or_false] at hmem
    rcases hmem with ⟨rfl, rfl⟩ | ⟨rfl, rfl⟩ | ⟨rfl, rfl⟩ | ⟨rfl, rfl⟩ | ⟨rfl, rfl⟩ | ⟨rfl, rfl⟩ <;> assumption
  rw [hpair, digitPair_toNat_cut hv]

end Sys2Proof
end
